-- ==== Sys2Proof/Word.lean ====
section
/-! DEFINITION. The plain value types of the block: a byte of the command stream and the 32-bit frame word. A
timestamp or a duration, in microseconds (00_scope.md R11), is a `Nat`: the block holds it in `W` bits, `W` is a
parameter (R8), and every rule evaluates it on unbounded integers and says `mod 2^W` where it wraps (R15). -/

namespace Sys2Proof

/-- One byte of the command stream (30_encoding.md R60). -/
abbrev Byte := BitVec 8

/-- The 32-bit Decoded Frame (10_state.md R27, 30_encoding.md R65). -/
abbrev Frame := BitVec 32

end Sys2Proof
end

