-- ==== Sys2Proof/Config.lean ====
section
/-! DEFINITION. The four implementation parameters the spec leaves OPEN (00_scope.md R6 to R9). They are fixed for
one machine: `State` carries them in a field that no operation writes. -/

namespace Sys2Proof

/-- What a classification miss does (00_scope.md R9, 42_decoder.md R112). -/
inductive MissPolicy where
  | hold
  | abandon
  deriving DecidableEq, Repr

/-- The parameters CAP, THR, W and MISS_POLICY (00_scope.md R6 to R9). -/
structure Config where
  /-- CAP: the capacity of the Timestamp Buffer in entries (R6). -/
  cap : Nat
  /-- THR: the decode threshold of POLL in entries (R7). -/
  thr : Nat
  /-- W: the width in bits of a timestamp and of a duration (R8). -/
  width : Nat
  /-- MISS_POLICY (R9). -/
  missPolicy : MissPolicy
  deriving DecidableEq, Repr

/-- The bounds the spec sets: `CAP >= 2` (R6), `1 <= THR < CAP` (R7), `W >= 14` (R8). -/
abbrev Config.wf (c : Config) : Prop :=
  2 ≤ c.cap ∧ 1 ≤ c.thr ∧ c.thr < c.cap ∧ 14 ≤ c.width

/-- The values every test vector of 95_test_vectors.md uses. DESIGN CHOICE (assumption log 1), unsafe to rest a
claim on: the spec gives the parameters no value. -/
def Config.testVectors : Config :=
  { cap := 100, thr := 67, width := 32, missPolicy := .hold }

end Sys2Proof
end

