-- ==== Sys2Proof/Syntax.lean ====
section
/-! DEFINITION. The operations of the block, one constructor per row of spec/opcode_table.json, and the agents that
issue them. -/

namespace Sys2Proof

/-- The two agents that drive the block (00_scope.md R12). -/
inductive Agent where
  /-- The interrupt context: it issues EDGE. -/
  | edgeSource
  /-- The ordinary control flow: it issues every other operation. -/
  | host
  deriving DecidableEq, Repr

/-- The operations of 30_encoding.md R61 with their operand fields in the table's order. A `W`-bit operand is a
number of microseconds; the other fields are bit fields of the widths R61 gives. -/
inductive Instr where
  /-- INIT (43_host_interface.md R130). -/
  | init
  /-- EDGE T (40_recorder.md R80). -/
  | edge (t : Nat)
  /-- POLL (43_host_interface.md R131). -/
  | poll
  /-- DECODE (43_host_interface.md R132). -/
  | decode
  /-- RDFRAME (43_host_interface.md R133). -/
  | rdFrame
  /-- RDSTATE (43_host_interface.md R134). -/
  | rdState
  /-- MATCH m, cls (41_comparator.md R94). -/
  | matchPort (m : Nat) (cls : BitVec 3)
  /-- STEP st, pos, frame, d, tot (42_decoder.md R117). -/
  | stepPort (st : BitVec 3) (pos : BitVec 6) (frame : Frame) (d tot : Nat)
  deriving DecidableEq, Repr

end Sys2Proof
end

