-- ==== Sys2Proof/WellFormed.lean ====
section
/-! DEFINITION. Which operations are well formed: the operands fit their fields (30_encoding.md R60) and hold no
value R62 calls reserved or ill-formed. -/

namespace Sys2Proof

/-- Why an operation is ill formed. -/
inductive IllFormed where
  /-- A `W`-bit operand is `2^W` or more: no encoding carries it (30_encoding.md R60). -/
  | operandTooWide
  /-- MATCH with `cls` 6 or 7 (30_encoding.md R62). -/
  | reservedClassSelector
  /-- STEP with `st` above 3 or `pos` above 31 (30_encoding.md R62). -/
  | illFormedStepOperands
  deriving DecidableEq, Repr

/-- Every `W`-bit operand is below `2^W`: exactly the operations that have an encoding (30_encoding.md R60). -/
abbrev Instr.fits (c : Config) : Instr → Prop
  | .edge t => t < 2 ^ c.width
  | .matchPort m _ => m < 2 ^ c.width
  | .stepPort _ _ _ d tot => d < 2 ^ c.width ∧ tot < 2 ^ c.width
  | .init => True
  | .poll => True
  | .decode => True
  | .rdFrame => True
  | .rdState => True

/-- The first check of 30_encoding.md R60 and R62 that the operation fails, if any. -/
def Instr.check (c : Config) : Instr → Option IllFormed
  | .init => none
  | .edge t => if t < 2 ^ c.width then none else some .operandTooWide
  | .poll => none
  | .decode => none
  | .rdFrame => none
  | .rdState => none
  | .matchPort m cls =>
      if ¬ m < 2 ^ c.width then some .operandTooWide
      else if 5 < cls.toNat then some .reservedClassSelector
      else none
  | .stepPort st pos _ d tot =>
      if ¬ (d < 2 ^ c.width ∧ tot < 2 ^ c.width) then some .operandTooWide
      else if 3 < st.toNat ∨ 31 < pos.toNat then some .illFormedStepOperands
      else none

/-- An operation that passes every check. -/
abbrev Instr.wellFormed (c : Config) (i : Instr) : Prop := i.check c = none

end Sys2Proof
end

