-- ==== Sys2Proof/Decode.lean ====
section
/-! DEFINITION. The command-stream decoder, total on any bytes and rejecting by name, and after it the encoder
(30_encoding.md R60 to R63). -/

namespace Sys2Proof

/-- Why the bytes at the front of a command stream are no operation. -/
inductive DecodeError where
  /-- `c[3:0]` is 0x0 or 0x9 to 0xF (60_exceptions.md R151). -/
  | reservedOpcode
  /-- `c[7:4]` is not 0 (60_exceptions.md R151). -/
  | reservedCommandBits
  /-- A padding bit of an operand's bytes is not 0 (30_encoding.md R63, 92_eei_decisions.md D2: all else is
  reserved and refused). DEDUCED for STEP's `st` and `pos` and for a `W` that is no multiple of 8
  (assumption log 3). -/
  | reservedOperandBits
  /-- The stream ends inside the operation. DESIGN CHOICE (assumption log 4). -/
  | truncated
  deriving DecidableEq, Repr

/-! ### Byte fields, most significant byte first (30_encoding.md R63) -/

/-- The bytes that carry a field of that many bits: one `W`-bit operand takes 4 bytes when `W = 32` (R63). -/
def fieldBytes (bits : Nat) : Nat := (bits + 7) / 8

/-- The number a list of bytes carries, most significant byte first. -/
def beValue (bytes : List Byte) : Nat := bytes.foldl (fun acc b => acc * 256 + b.toNat) 0

/-- The `k` low bytes of `v`, most significant first. -/
def beBytes : Nat → Nat → List Byte
  | 0, _ => []
  | k + 1, v => BitVec.ofNat 8 (v / 256 ^ k) :: beBytes k v

/-- Read one unsigned operand field of `bits` bits from the front of the stream; its padding bits must be 0. -/
def takeField (bits : Nat) (bytes : List Byte) : Except DecodeError (Nat × List Byte) :=
  let k := fieldBytes bits
  if bytes.length < k then .error .truncated
  else
    let v := beValue (bytes.take k)
    if v < 2 ^ bits then .ok (v, bytes.drop k) else .error .reservedOperandBits

/-! ### The decoder -/

/-- The op code `c[3:0]` of a command byte (R60). -/
def opCode (c : Byte) : Nat := c.toNat % 16

/-- The reserved field `c[7:4]` of a command byte (R60). -/
def commandBits (c : Byte) : Nat := c.toNat / 16

/-- Op codes 0x0 and 0x9 to 0xF (R62). -/
abbrev reservedOpCode (op : Nat) : Prop := op = 0 ∨ 9 ≤ op

/-- EDGE's operand `T` (R61). -/
def decodeEdge (c : Config) (bytes : List Byte) : Except DecodeError (Instr × List Byte) := do
  let (t, rest) ← takeField c.width bytes
  return (.edge t, rest)

/-- MATCH's operands `m`, `cls` (R61). -/
def decodeMatch (c : Config) (bytes : List Byte) : Except DecodeError (Instr × List Byte) := do
  let (m, rest) ← takeField c.width bytes
  let (cls, rest) ← takeField 3 rest
  return (.matchPort m (BitVec.ofNat 3 cls), rest)

/-- STEP's operands `st`, `pos`, `frame`, `d`, `tot` (R61). -/
def decodeStep (c : Config) (bytes : List Byte) : Except DecodeError (Instr × List Byte) := do
  let (st, rest) ← takeField 3 bytes
  let (pos, rest) ← takeField 6 rest
  let (frame, rest) ← takeField 32 rest
  let (d, rest) ← takeField c.width rest
  let (tot, rest) ← takeField c.width rest
  return (.stepPort (BitVec.ofNat 3 st) (BitVec.ofNat 6 pos) (BitVec.ofNat 32 frame) d tot, rest)

/-- The operands of the operation with that op code (R61). -/
def decodeOperands (c : Config) (op : Nat) (bytes : List Byte) : Except DecodeError (Instr × List Byte) :=
  match op with
  | 1 => .ok (.init, bytes)
  | 2 => decodeEdge c bytes
  | 3 => .ok (.poll, bytes)
  | 4 => .ok (.decode, bytes)
  | 5 => .ok (.rdFrame, bytes)
  | 6 => .ok (.rdState, bytes)
  | 7 => decodeMatch c bytes
  | 8 => decodeStep c bytes
  | _ => .error .reservedOpcode

/-- The operation at the front of a command stream, and the rest of the stream (R60 to R63). A byte that is
reserved in both ways is refused as `reservedOpcode`, the first name of R151's list (assumption log 4). -/
def decode (c : Config) : List Byte → Except DecodeError (Instr × List Byte)
  | [] => .error .truncated
  | b :: rest =>
      if reservedOpCode (opCode b) then .error .reservedOpcode
      else if commandBits b ≠ 0 then .error .reservedCommandBits
      else decodeOperands c (opCode b) rest

/-! ### The encoder -/

/-- The bytes of an operation: its command byte, then its operands in the order of R61, most significant byte
first. -/
def encode (c : Config) : Instr → List Byte
  | .init => [0x01#8]
  | .edge t => 0x02#8 :: beBytes (fieldBytes c.width) t
  | .poll => [0x03#8]
  | .decode => [0x04#8]
  | .rdFrame => [0x05#8]
  | .rdState => [0x06#8]
  | .matchPort m cls => 0x07#8 :: (beBytes (fieldBytes c.width) m ++ beBytes 1 cls.toNat)
  | .stepPort st pos frame d tot =>
      0x08#8 :: (beBytes 1 st.toNat ++ beBytes 1 pos.toNat ++ beBytes 4 frame.toNat
        ++ beBytes (fieldBytes c.width) d ++ beBytes (fieldBytes c.width) tot)

/-! ### Lengths and the opcode table's words -/

/-- How many operand bytes follow a command byte: it depends on `c[3:0]` alone (R63). -/
def operandBytes (c : Config) (op : Nat) : Nat :=
  match op with
  | 2 => fieldBytes c.width
  | 7 => fieldBytes c.width + 1
  | 8 => 1 + 1 + 4 + fieldBytes c.width + fieldBytes c.width
  | _ => 0

/-- The length of the longest operation, STEP, in bytes: 15 when `W = 32` (R63). -/
def longestOperation (c : Config) : Nat := 1 + operandBytes c 8

/-- The first `k` bytes of a word whose bit 0 is the least significant bit of its first byte, as
spec/opcode_table.json numbers them. -/
def wordBytes : Nat → Nat → List Byte
  | 0, _ => []
  | k + 1, w => BitVec.ofNat 8 w :: wordBytes k (w / 256)

/-- The bytes of an opcode-table word of `nbits` bits, followed by zero bytes up to the longest operation. -/
def tableBytes (c : Config) (nbits w : Nat) : List Byte :=
  wordBytes (longestOperation c) (w % 2 ^ nbits)

/-- The operation the decoder reads from an opcode-table word, under the parameters `State.reset` has. -/
def decodeTableWord (nbits w : Nat) : Option Instr :=
  match decode Config.testVectors (tableBytes Config.testVectors nbits w) with
  | .ok (i, _) => some i
  | .error _ => none

end Sys2Proof
end

