-- ==== Sys2Proof/Machine/State.lean ====
section
/-! DEFINITION. The state of the block, its faults and refusals, and its power-on state (10_state.md R20,
70_reset_and_hazards.md R170). -/

namespace Sys2Proof.Machine

/-- The decoder state `st` (30_encoding.md R64). State codes 6 and 7 have no constructor: they never occur
(10_state.md R28). -/
inductive DecoderState where
  | noSignal
  | seekingLeadSpace
  | seekingBurst
  | readingBits
  | frameComplete
  | repeatCode
  deriving DecidableEq, Repr

/-- What one decoder transition reads and writes: the state elements `st`, `pos` and `frame` (10_state.md R27). -/
structure DecoderRegs where
  st : DecoderState
  pos : BitVec 6
  frame : Frame
  deriving DecidableEq, Repr

/-- What one decoder transition returns: the new `st`, `pos`, `frame`, and `stop` (42_decoder.md R104 to R112). -/
structure StepResult where
  regs : DecoderRegs
  stop : Bool
  deriving DecidableEq, Repr

/-- A value an operation returns to its issuing agent (30_encoding.md R61, 00_scope.md R13). -/
inductive Reply where
  /-- POLL's `ready`: the threshold-reached signal (43_host_interface.md R131). -/
  | ready (value : Bool)
  /-- RDFRAME's `address` and `command` (R133). -/
  | frame (address command : BitVec 16)
  /-- RDSTATE's state code and position (R134). -/
  | state (st : BitVec 3) (pos : BitVec 6)
  /-- MATCH's `hit` (41_comparator.md R94). -/
  | hit (value : Bool)
  /-- STEP's `st'`, `pos'`, `frame'` and `stop` (42_decoder.md R117). -/
  | stepped (st : BitVec 3) (pos : BitVec 6) (frame : Frame) (stop : Bool)
  deriving DecidableEq, Repr

/-- The contents of `buf`: (index, timestamp) pairs, one `W`-bit entry per index (20_memory.md R40), in rising
order of index. An unlisted index holds NO VALUE (10_state.md R26, 92_eei_decisions.md D18). -/
abbrev Memory := List (Nat × Nat)

/-- Why the machine stops with a fault. No run that starts at reset meets one: the block raises no exception
(60_exceptions.md R150). Each marks a state or an access the spec says does not occur, so each is safe. -/
inductive Fault where
  /-- Raised by a scan's read of an index at or above `CAP`: no such entry exists (20_memory.md R40). Safe. -/
  | noSuchEntry (index : Nat)
  /-- Raised by a scan's read of an index at or above `w` (93_implementation_defined.md I7: `fault` if read).
  Safe. -/
  | entryBeyondLength (index : Nat)
  /-- Raised by a scan's read of an entry nothing has written (93_implementation_defined.md I8: `fault` if read).
  Safe. -/
  | entryWithoutValue (index : Nat)
  /-- Raised by EDGE while `cap_susp` is true: an EDGE is never performed then (40_recorder.md R83). Safe. -/
  | edgeWhileSuspended
  deriving DecidableEq, Repr

/-- Why an operation is refused. The run ends there, which is the mark R151 asks for; each is safe. -/
inductive Refusal where
  /-- Raised by an arm of `exec` that has no meaning yet. Safe. -/
  | notModelled (mnemonic : String)
  /-- Raised by the fetch: `c[3:0]` is 0x0 or 0x9 to 0xF (60_exceptions.md R151). Safe. -/
  | reservedOpcode
  /-- Raised by the fetch: `c[7:4]` is not 0 (R151). Safe. -/
  | reservedCommandBits
  /-- Raised by the fetch: a padding bit of an operand is not 0 (30_encoding.md R63; assumption log 3). Safe. -/
  | reservedOperandBits
  /-- Raised by the fetch: the agent's stream ends inside the operation (assumption log 4). Safe. -/
  | truncatedOperation
  /-- Raised by the fetch: the agent issues an operation that is not its own (60_exceptions.md R158; assumption
  log 5). Safe. -/
  | wrongIssuer
  /-- Raised by MATCH: `cls` is 6 or 7 (R151). Safe. -/
  | reservedClassSelector
  /-- Raised by STEP: `st > 3` or `pos > 31` (R151). Safe. -/
  | illFormedStepOperands
  deriving DecidableEq, Repr

/-- Everything the spec gives the block (10_state.md R20: `buf`, `w`, `st`, `pos`, `frame`, `cap_en`, `cap_susp`),
the parameters it is built with, and the model's own record of its environment: what the two agents are about to
issue and what was returned to them. -/
structure State where
  /-- CAP, THR, W and MISS_POLICY (00_scope.md R6 to R9). No operation writes it (assumption log 1). -/
  cfg : Config
  /-- `buf[0..CAP-1]`, the Timestamp Buffer. -/
  buf : Memory
  /-- `w`: the logical length of `buf` and the next write position. -/
  w : Nat
  /-- `st`, the decoder state. -/
  st : DecoderState
  /-- `pos`, the bit-position counter. -/
  pos : BitVec 6
  /-- `frame`, the Decoded Frame. -/
  frame : Frame
  /-- `cap_en`: INIT has installed the recorder (10_state.md R23). -/
  capEn : Bool
  /-- `cap_susp`: capture is suspended (10_state.md R24). -/
  capSusp : Bool
  /-- The model's own: the command bytes the host has yet to issue (assumption log 2). -/
  hostIn : List Byte
  /-- The model's own: the command bytes the edge source has yet to issue (assumption log 2). -/
  edgeIn : List Byte
  /-- The model's own: which agent's operation comes next, and after it. This is the total order of
  20_memory.md R46 (assumption log 2). -/
  order : List Agent
  /-- The model's own: the agent whose operation runs, to whom its result is returned (assumption log 6). -/
  issuer : Agent
  /-- The model's own: every value returned so far, oldest first, with the agent it was returned to
  (00_scope.md R13; assumption log 6). -/
  replies : List (Agent × Reply)
  deriving DecidableEq, Repr

/-- The block after power-on with the parameters `c` (70_reset_and_hazards.md R170), with nothing issued yet. -/
def State.powerOn (c : Config) : State :=
  { cfg := c
    buf := []
    w := 0
    st := .noSignal
    pos := 0
    frame := 0
    capEn := false
    capSusp := false
    hostIn := []
    edgeIn := []
    order := []
    issuer := .host
    replies := [] }

/-- The machine right after reset, with the test vectors' parameters (assumption log 1). -/
def State.reset : State := State.powerOn Config.testVectors

end Sys2Proof.Machine
end

