-- ==== Sys2Proof/Machine/Ops.lean ====
section
/-! DEFINITION. The named operations over the Timestamp Buffer and the state elements. The block takes no exception
and returns from none (60_exceptions.md R150, R155, R156), so there is no operation for either: the edge interrupt
is the operation EDGE. -/

namespace Sys2Proof.Machine

/-! ### The Timestamp Buffer -/

/-- The value listed at an index, or no value. -/
def Memory.read : Memory → Nat → Option Nat
  | [], _ => none
  | (j, v) :: m, i => if i = j then some v else Memory.read m i

/-- Write one entry, keeping the indices in rising order. -/
def Memory.write : Memory → Nat → Nat → Memory
  | [], i, v => [(i, v)]
  | (j, u) :: m, i, v =>
      if i < j then (i, v) :: (j, u) :: m
      else if i = j then (i, v) :: m
      else (j, u) :: Memory.write m i v

/-- Every listed index is above `lo`, and the indices rise strictly. -/
def Memory.risesFrom : Nat → Memory → Bool
  | _, [] => true
  | lo, (j, _) :: m => decide (lo ≤ j) && Memory.risesFrom (j + 1) m

/-- The canonical form: strictly rising indices. No entry can equal what an unlisted index reads as, because that
is no value. -/
def Memory.wf (m : Memory) : Bool := Memory.risesFrom 0 m

/-- `buf[i]` as a scan reads it (20_memory.md R40, 93_implementation_defined.md I7 and I8). -/
def State.readEntry (s : State) (i : Nat) : Except Fault Nat :=
  if s.cfg.cap ≤ i then .error (.noSuchEntry i)
  else if s.w ≤ i then .error (.entryBeyondLength i)
  else
    match s.buf.read i with
    | some v => .ok v
    | none => .error (.entryWithoutValue i)

/-! ### Writes of the state elements -/

/-- `buf[w] <- t; w <- w + 1` (40_recorder.md R80). -/
def State.append (s : State) (t : Nat) : State :=
  { s with buf := s.buf.write s.w t, w := s.w + 1 }

/-- `cap_en <- true` (43_host_interface.md R130). -/
def State.enableCapture (s : State) : State := { s with capEn := true }

/-- `cap_susp <- true` (20_memory.md R47). -/
def State.suspend (s : State) : State := { s with capSusp := true }

/-- `cap_susp <- false` (20_memory.md R47). -/
def State.resume (s : State) : State := { s with capSusp := false }

/-- `w <- 0`; the contents of `buf` stay in place (70_reset_and_hazards.md R172). -/
def State.resetCapture (s : State) : State := { s with w := 0 }

/-- Write `st`, `pos` and `frame` (42_decoder.md R113). -/
def State.setDecoder (s : State) (r : DecoderRegs) : State :=
  { s with st := r.st, pos := r.pos, frame := r.frame }

/-- Return a value to the issuing agent (30_encoding.md R60). -/
def State.reply (s : State) (r : Reply) : State :=
  { s with replies := s.replies ++ [(s.issuer, r)] }

/-! ### The agents' command streams -/

/-- The command bytes an agent has yet to issue. -/
def State.stream (s : State) : Agent → List Byte
  | .host => s.hostIn
  | .edgeSource => s.edgeIn

/-- Replace an agent's command stream. -/
def State.setStream (s : State) (a : Agent) (bytes : List Byte) : State :=
  match a with
  | .host => { s with hostIn := bytes }
  | .edgeSource => { s with edgeIn := bytes }

/-- Which operations an agent may issue (00_scope.md R12, 60_exceptions.md R158): the edge source alone issues
EDGE, the host alone INIT, POLL and DECODE, and either the state-free operations. -/
def mayIssue : Agent → Instr → Bool
  | .host, .edge _ => false
  | .host, _ => true
  | .edgeSource, .init => false
  | .edgeSource, .poll => false
  | .edgeSource, .decode => false
  | .edgeSource, _ => true

/-- The agent that issues an operation when nothing else is said (30_encoding.md R70). -/
def defaultIssuer : Instr → Agent
  | .edge _ => .edgeSource
  | _ => .host

/-- An agent issues one more operation, after everything already waiting (20_memory.md R46). -/
def State.issue (s : State) (a : Agent) (i : Instr) : State :=
  let s' := s.setStream a (s.stream a ++ encode s.cfg i)
  { s' with order := s.order ++ [a] }

end Sys2Proof.Machine
end

