-- ==== Sys2Proof/Machine/Operands.lean ====
section
/-! DEFINITION. The operand forms of 30_encoding.md R61 and the fields the results are made of: the `W`-bit operand,
the class selector, the state codes, and the frame's two halves. -/

namespace Sys2Proof.Machine

/-- A `W`-bit operand as the block takes it: its low `W` bits (00_scope.md R8). Every operation that has an
encoding fits its field, so this changes nothing for it (assumption log 7). -/
def operandBits (c : Config) (v : Nat) : Nat := v % 2 ^ c.width

/-- The six timing classes (30_encoding.md R66). -/
inductive DurationClass where
  | agcBurst
  | startSpacer
  | repeatSpacer
  | bitBurst
  | zeroBitTotal
  | oneBitTotal
  deriving DecidableEq, Repr

/-- The canonical duration of a class, in microseconds (30_encoding.md R66). -/
def DurationClass.canonical : DurationClass → Nat
  | .agcBurst => 9000
  | .startSpacer => 4500
  | .repeatSpacer => 2250
  | .bitBurst => 560
  | .zeroBitTotal => 1120
  | .oneBitTotal => 2250

/-- MATCH's class selector; 6 and 7 are reserved (30_encoding.md R62, R66). -/
def classOfSelector (cls : BitVec 3) : Option DurationClass :=
  match cls.toNat with
  | 0 => some .agcBurst
  | 1 => some .startSpacer
  | 2 => some .repeatSpacer
  | 3 => some .bitBurst
  | 4 => some .zeroBitTotal
  | 5 => some .oneBitTotal
  | _ => none

/-- The 3-bit state code (30_encoding.md R64). -/
def DecoderState.code : DecoderState → BitVec 3
  | .noSignal => 0
  | .seekingLeadSpace => 1
  | .seekingBurst => 2
  | .readingBits => 3
  | .frameComplete => 4
  | .repeatCode => 5

/-- The terminal states (30_encoding.md R64). -/
def DecoderState.terminal : DecoderState → Bool
  | .frameComplete => true
  | .repeatCode => true
  | .noSignal => false
  | .seekingLeadSpace => false
  | .seekingBurst => false
  | .readingBits => false

/-- STEP's `st` operand: a non-terminal state (30_encoding.md R62). -/
def stepState (st : BitVec 3) : Option DecoderState :=
  match st.toNat with
  | 0 => some .noSignal
  | 1 => some .seekingLeadSpace
  | 2 => some .seekingBurst
  | 3 => some .readingBits
  | _ => none

/-- STEP's `st`, `pos` and `frame` operands, unless they are ill formed (42_decoder.md R117). -/
def stepRegs (st : BitVec 3) (pos : BitVec 6) (frame : Frame) : Option DecoderRegs :=
  match stepState st with
  | some q => if pos.toNat ≤ 31 then some ⟨q, pos, frame⟩ else none
  | none => none

/-- `frame[15:0]`, the first 16 bits received (30_encoding.md R65). -/
def addressOf (frame : Frame) : BitVec 16 := frame.extractLsb' 0 16

/-- `frame[31:16]`, the next 16 (30_encoding.md R65). -/
def commandOf (frame : Frame) : BitVec 16 := frame.extractLsb' 16 16

end Sys2Proof.Machine
end

