-- ==== Sys2Proof/Machine/Comparator.lean ====
section
/-! DEFINITION. The Tolerance Comparator and its test port MATCH (41_comparator.md). -/

namespace Sys2Proof.Machine

/-- `match(m, c) := |m - c| * 10 <= c * 3`, exactly on integers (41_comparator.md R90). The tolerance 3/10 is one
constant and no operand (R91). -/
def toleranceMatch (m c : Nat) : Bool :=
  decide (((m : Int) - (c : Int)).natAbs * 10 ≤ c * 3)

/-- A duration tested against a timing class: the only classification primitive (41_comparator.md R95). -/
def DurationClass.accepts (k : DurationClass) (m : Nat) : Bool := toleranceMatch m k.canonical

/-- MATCH m, cls (41_comparator.md R94). -/
def execMatchPort (m : Nat) (cls : BitVec 3) (s : State) : Host.Outcome State Fault Refusal :=
  match classOfSelector cls with
  | none => .refused .reservedClassSelector
  | some k => .next (s.reply (.hit (k.accepts (operandBits s.cfg m))))

end Sys2Proof.Machine
end

