-- ==== Sys2Proof/Machine/Decoder.lean ====
section
/-! DEFINITION. The NEC Frame Decoder: the transition function, its test port STEP, the scan, and the critical
section that POLL and DECODE share (42_decoder.md, 20_memory.md R47). -/

namespace Sys2Proof.Machine

/-! ### The transition function (42_decoder.md R104 to R112) -/

/-- Write the bit `b` at position `pos` of the frame and keep every other bit (42_decoder.md R109). -/
def writeBit (frame : Frame) (pos : Nat) (b : Bool) : Frame :=
  (frame &&& ~~~(1#32 <<< pos)) ||| ((if b then 1#32 else 0#32) <<< pos)

/-- A classification miss (42_decoder.md R112). -/
def missResult (p : MissPolicy) (r : DecoderRegs) : StepResult :=
  match p with
  | .hold => ⟨r, false⟩
  | .abandon => ⟨{ r with st := .noSignal, pos := 0 }, false⟩

/-- The bit a total stands for, or no bit (42_decoder.md R108). -/
def bitOfTotal (tot : Nat) : Option Bool :=
  if DurationClass.zeroBitTotal.accepts tot then some false
  else if DurationClass.oneBitTotal.accepts tot then some true
  else none

/-- Write a resolved bit and advance the position; position 32 completes the frame (42_decoder.md R109, R110). -/
def resolveBit (r : DecoderRegs) (b : Bool) : StepResult :=
  let frame := writeBit r.frame r.pos.toNat b
  let pos := r.pos + 1
  if pos = 32 then ⟨⟨.frameComplete, 32, frame⟩, true⟩
  else ⟨⟨.seekingBurst, pos, frame⟩, false⟩

/-- SEEKING_LEAD_SPACE when the delta is no AGC burst (42_decoder.md R106). -/
def seekLeadSpace (p : MissPolicy) (r : DecoderRegs) (d : Nat) : StepResult :=
  if DurationClass.startSpacer.accepts d then ⟨{ r with st := .seekingBurst }, false⟩
  else if DurationClass.repeatSpacer.accepts d then ⟨{ r with st := .repeatCode }, true⟩
  else missResult p r

/-- SEEKING_BURST when the delta is no AGC burst (42_decoder.md R107). -/
def seekBurst (p : MissPolicy) (r : DecoderRegs) (d : Nat) : StepResult :=
  if DurationClass.bitBurst.accepts d then ⟨{ r with st := .readingBits }, false⟩
  else missResult p r

/-- READING_BITS when the delta is no AGC burst: it classifies the total (42_decoder.md R108). -/
def readBit (p : MissPolicy) (r : DecoderRegs) (tot : Nat) : StepResult :=
  match bitOfTotal tot with
  | some b => resolveBit r b
  | none => missResult p r

/-- The rule of the current state, tried after the AGC test (42_decoder.md R105 to R108). No step is ever applied
in a terminal state (R111), so what those two arms answer is never used (assumption log 8). -/
def stateRule (p : MissPolicy) (r : DecoderRegs) (d tot : Nat) : StepResult :=
  match r.st with
  | .noSignal => ⟨r, false⟩
  | .seekingLeadSpace => seekLeadSpace p r d
  | .seekingBurst => seekBurst p r d
  | .readingBits => readBit p r tot
  | .frameComplete => ⟨r, true⟩
  | .repeatCode => ⟨r, true⟩

/-- `step(st, pos, frame, d, tot)`: resynchronization first (42_decoder.md R104), then the rule of the current
state. The frame is not cleared by a resynchronization (R116). -/
def transition (p : MissPolicy) (r : DecoderRegs) (d tot : Nat) : StepResult :=
  if DurationClass.agcBurst.accepts d then ⟨{ r with st := .seekingLeadSpace, pos := 0 }, false⟩
  else stateRule p r d tot

/-- STEP's returned values (42_decoder.md R117). -/
def StepResult.toReply (x : StepResult) : Reply :=
  .stepped x.regs.st.code x.regs.pos x.regs.frame x.stop

/-- STEP st, pos, frame, d, tot (42_decoder.md R117). -/
def execStepPort (st : BitVec 3) (pos : BitVec 6) (frame : Frame) (d tot : Nat) (s : State) :
    Host.Outcome State Fault Refusal :=
  match stepRegs st pos frame with
  | none => .refused .illFormedStepOperands
  | some r =>
      .next (s.reply
        (transition s.cfg.missPolicy r (operandBits s.cfg d) (operandBits s.cfg tot)).toReply)

/-! ### The scan (42_decoder.md R100 to R103, R111, R113) -/

/-- `(later - earlier) mod 2^W` (42_decoder.md R102, R103; 00_scope.md R15). -/
def elapsed (c : Config) (later earlier : Nat) : Nat :=
  (((later : Int) - (earlier : Int)) % ((2 ^ c.width : Nat) : Int)).toNat

/-- The delta `d_k` (42_decoder.md R102). -/
def State.delta (s : State) (k : Nat) : Except Fault Nat := do
  let later ← s.readEntry k
  let earlier ← s.readEntry (k - 1)
  return elapsed s.cfg later earlier

/-- The total `tot_k`, which is `d_1` for `k = 1` (42_decoder.md R103). -/
def State.total (s : State) (k : Nat) : Except Fault Nat :=
  if 2 ≤ k then do
    let later ← s.readEntry k
    let earlier ← s.readEntry (k - 2)
    return elapsed s.cfg later earlier
  else s.delta k

/-- The reset at the start of every scan (42_decoder.md R101). -/
def decoderReset : DecoderRegs := ⟨.noSignal, 0, 0⟩

/-- The loop of the scan: `n` more deltas, the next one `d_k` (42_decoder.md R100). It stops at the first step that
returns `stop` (R111). -/
def State.scanFrom (s : State) : Nat → Nat → DecoderRegs → Except Fault DecoderRegs
  | 0, _, r => .ok r
  | n + 1, k, r => do
      let d ← s.delta k
      let tot ← s.total k
      let x := transition s.cfg.missPolicy r d tot
      if x.stop then return x.regs else s.scanFrom n (k + 1) x.regs

/-- The decode scan over `buf[0..w-1]`: the final `st`, `pos` and `frame` (42_decoder.md R100, R113). -/
def State.scan (s : State) : Except Fault DecoderRegs := s.scanFrom (s.w - 1) 1 decoderReset

/-- The critical section (20_memory.md R47): suspend capture, scan, reset `w` if asked, and resume. -/
def State.decodeCycle (s : State) (resetAfter : Bool) : Except Fault State := do
  let s1 := s.suspend
  let r ← s1.scan
  let s2 := s1.setDecoder r
  let s3 := if resetAfter then s2.resetCapture else s2
  return s3.resume

end Sys2Proof.Machine
end

