-- ==== Sys2Proof/Machine/Flags.lean ====
section
/-! DEFINITION. The block has no status-flag register (10_state.md R22). Two status signals stand in for flags, and
they are kept apart (43_host_interface.md R136). -/

namespace Sys2Proof.Machine

/-- threshold-reached: `w >= THR` (92_eei_decisions.md D32). -/
def State.thresholdReached (s : State) : Bool := decide (s.cfg.thr ≤ s.w)

/-- decode-succeeded: `st == FRAME_COMPLETE` (43_host_interface.md R136). -/
def State.decodeSucceeded (s : State) : Bool := decide (s.st = .frameComplete)

end Sys2Proof.Machine
end

