-- ==== Sys2Proof/Machine/HostInterface.lean ====
section
/-! DEFINITION. The host's operations INIT, POLL, DECODE, RDFRAME and RDSTATE (43_host_interface.md). -/

namespace Sys2Proof.Machine

/-- INIT (43_host_interface.md R130): install the recorder. It touches nothing else (92_eei_decisions.md D15). -/
def execInit (s : State) : Host.Outcome State Fault Refusal := .next s.enableCapture

/-- POLL (43_host_interface.md R131): decode and reset capture when the threshold is reached, and return
threshold-reached. -/
def execPoll (s : State) : Host.Outcome State Fault Refusal :=
  if s.thresholdReached then
    match s.decodeCycle true with
    | .ok s' => .next (s'.reply (.ready true))
    | .error f => .fault f
  else .next (s.reply (.ready false))

/-- DECODE (43_host_interface.md R132): decode at any `w`, without resetting capture. -/
def execDecode (s : State) : Host.Outcome State Fault Refusal :=
  match s.decodeCycle false with
  | .ok s' => .next s'
  | .error f => .fault f

/-- RDFRAME (43_host_interface.md R133): return the current address and command fields. -/
def execRdFrame (s : State) : Host.Outcome State Fault Refusal :=
  .next (s.reply (.frame (addressOf s.frame) (commandOf s.frame)))

/-- RDSTATE (43_host_interface.md R134): return the state code and the position. -/
def execRdState (s : State) : Host.Outcome State Fault Refusal :=
  .next (s.reply (.state s.st.code s.pos))

end Sys2Proof.Machine
end

