-- ==== Sys2Proof/Machine/Recorder.lean ====
section
/-! DEFINITION. The Edge Timestamp Recorder: EDGE (40_recorder.md). -/

namespace Sys2Proof.Machine

/-- EDGE T (40_recorder.md R80): record one transition, or drop it silently when the buffer is full or the recorder
is not installed. It is never performed while capture is suspended (R83). -/
def execEdge (t : Nat) (s : State) : Host.Outcome State Fault Refusal :=
  if s.capSusp then .fault .edgeWhileSuspended
  else if s.capEn then
    if s.w < s.cfg.cap then .next (s.append (operandBits s.cfg t)) else .next s
  else .next s

end Sys2Proof.Machine
end

