-- ==== Sys2Proof/Machine/Dispatch.lean ====
section
/-! DEFINITION. One arm per operation, each a direct call of its meaning. -/

namespace Sys2Proof.Machine

def exec (i : Instr) (s : State) : Host.Outcome State Fault Refusal :=
  match i with
  | .init => Sys2Proof.Machine.execInit s
  | .edge t => Sys2Proof.Machine.execEdge t s
  | .poll => Sys2Proof.Machine.execPoll s
  | .decode => Sys2Proof.Machine.execDecode s
  | .rdFrame => Sys2Proof.Machine.execRdFrame s
  | .rdState => Sys2Proof.Machine.execRdState s
  | .matchPort m cls => Sys2Proof.Machine.execMatchPort m cls s
  | .stepPort st pos frame d tot => Sys2Proof.Machine.execStepPort st pos frame d tot s

end Sys2Proof.Machine
end

