-- ==== Sys2Proof/Machine/Fetch.lean ====
section
/-! DEFINITION. How the next operation reaches the block. The block fetches no instructions of its own
(20_memory.md R50): the two agents issue commands, and `order` is the one total order their operations take effect
in (R46). -/

namespace Sys2Proof.Machine

/-- What comes next. -/
inductive Fetched where
  /-- No operation: the block's state persists (60_exceptions.md R163). -/
  | idle (s : State)
  /-- The operation to run, on the state with its bytes consumed. -/
  | operation (i : Instr) (s : State)
  /-- The bytes are refused by name (60_exceptions.md R151). -/
  | refused (r : Refusal)
  deriving DecidableEq, Repr

/-- The refusal a decoder error is reported as. -/
def refusalOf : DecodeError → Refusal
  | .reservedOpcode => .reservedOpcode
  | .reservedCommandBits => .reservedCommandBits
  | .reservedOperandBits => .reservedOperandBits
  | .truncated => .truncatedOperation

/-- Agent `a`'s operation is taken off its stream, `bytes` is what remains of it, `rest` is what remains of the
order, and `a` is the agent a result is returned to. -/
def State.accept (s : State) (a : Agent) (bytes : List Byte) (rest : List Agent) : State :=
  let s' := s.setStream a bytes
  { s' with order := rest, issuer := a }

/-- The next operation in the total order. With no turn left the block idles; an agent that has nothing to issue
lets its turn pass (assumption log 2). -/
def State.fetch (s : State) : Fetched :=
  match s.order with
  | [] => .idle s
  | a :: rest =>
      match s.stream a with
      | [] => .idle { s with order := rest }
      | b :: bytes =>
          match decode s.cfg (b :: bytes) with
          | .error e => .refused (refusalOf e)
          | .ok (i, tail) =>
              if mayIssue a i then .operation i (s.accept a tail rest) else .refused .wrongIssuer

/-- The agent whose stream a command goes to: the edge source for EDGE, the host for every other command byte
(30_encoding.md R61, R70). -/
def carrierOf : List Byte → Agent
  | b :: _ => if opCode b = 2 then .edgeSource else .host
  | [] => .host

/-- The command's own bytes: its length is fixed by its op code (30_encoding.md R63). -/
def commandOnly (c : Config) : List Byte → List Byte
  | b :: rest => b :: rest.take (operandBytes c (opCode b))
  | [] => []

/-- Put one opcode-table word in front of everything waiting, as its agent's next command and the next turn. -/
def State.placeWord (s : State) (nbits w : Nat) : State :=
  let bytes := tableBytes s.cfg nbits w
  let a := carrierOf bytes
  let s' := s.setStream a (commandOnly s.cfg bytes ++ s.stream a)
  { s' with order := a :: s.order }

end Sys2Proof.Machine
end

