-- ==== Sys2Proof/Machine/Step.lean ====
section
/-! DEFINITION. One step of the machine: one operation of one agent, atomically (00_scope.md R12). -/

namespace Sys2Proof.Machine

/-- One step: the next operation in the total order, or nothing when none is issued (00_scope.md R12, R13). -/
def step (s : State) : Host.Outcome State Fault Refusal :=
  match s.fetch with
  | .idle s' => .next s'
  | .operation i s' => exec i s'
  | .refused r => .refused r

/-- The state with an opcode-table word issued as the next command (assumption log 2). -/
def State.withFetchWord (s : State) (nbits w : Nat) : State := s.placeWord nbits w

end Sys2Proof.Machine
end

