-- ==== Sys2Proof/Machine/Assembler.lean ====
section
/-! DEFINITION. The edge sequences of a signal, the pseudo-operations that expand to them, and the assembler syntax
for sequences of operations (30_encoding.md R69 to R71). -/

namespace Sys2Proof.Machine

/-! ### The physical signal (30_encoding.md R69) -/

/-- The space that follows the burst of a bit (30_encoding.md R69). -/
def bitSpace (b : Bool) : Nat := if b then 1690 else 560

/-- The timestamps of `n` bits of the frame, from bit `j` on, after the edge at `t` (30_encoding.md R69). -/
def bitTimes (frame : Frame) : Nat → Nat → Nat → List Nat
  | 0, _, _ => []
  | n + 1, j, t =>
      (t + 560) :: (t + 560 + bitSpace (frame.getLsbD j))
        :: bitTimes frame n (j + 1) (t + 560 + bitSpace (frame.getLsbD j))

/-- The 67 timestamps `t0` to `t66` of a new frame (30_encoding.md R69), not yet taken mod `2^W`. -/
def frameTimes (frame : Frame) (t0 : Nat) : List Nat :=
  t0 :: (t0 + 9000) :: (t0 + 9000 + 4500) :: bitTimes frame 32 0 (t0 + 9000 + 4500)

/-- The timestamps of a repeat code (30_encoding.md R69). -/
def repeatTimes (t0 : Nat) : List Nat := [t0, t0 + 9000, t0 + 9000 + 2250]

/-- `n` timestamps that are `step` apart (30_encoding.md R71). -/
def spacedTimes : Nat → Nat → Nat → List Nat
  | _, _, 0 => []
  | t0, step, n + 1 => t0 :: spacedTimes (t0 + step) step n

/-- The EDGE operations with those timestamps, each taken mod `2^W` (30_encoding.md R71). -/
def edgesAt (c : Config) (times : List Nat) : List Instr := times.map fun t => .edge (t % 2 ^ c.width)

/-! ### The pseudo-operations (30_encoding.md R71) -/

/-- `frame = {command, address}` (30_encoding.md R65). -/
def frameOf (address command : BitVec 16) : Frame := command ++ address

/-- `NECFRAME a, b, t0`. -/
def necFrame (c : Config) (address command : BitVec 16) (t0 : Nat) : List Instr :=
  edgesAt c (frameTimes (frameOf address command) t0)

/-- `NECFRAME_STOP a, b, t0`: the frame and one trailing burst after `t66`. -/
def necFrameStop (c : Config) (address command : BitVec 16) (t0 : Nat) : List Instr :=
  let times := frameTimes (frameOf address command) t0
  edgesAt c (times ++ [times.getLastD 0 + 560])

/-- `NECREPEAT t0`. -/
def necRepeat (c : Config) (t0 : Nat) : List Instr := edgesAt c (repeatTimes t0)

/-- `EDGES t0, step, n`. -/
def edgesEvery (c : Config) (t0 step : Nat) (n : Nat) : List Instr := edgesAt c (spacedTimes t0 step n)

/-! ### The assembler syntax (30_encoding.md R70) -/

/-- A digit of a number in base 10 or 16. -/
def digitValue (c : Char) : Option Nat :=
  if '0' ≤ c ∧ c ≤ '9' then some (c.toNat - '0'.toNat)
  else if 'a' ≤ c ∧ c ≤ 'f' then some (c.toNat - 'a'.toNat + 10)
  else if 'A' ≤ c ∧ c ≤ 'F' then some (c.toNat - 'A'.toNat + 10)
  else none

/-- The number the digits stand for in that base. -/
def digitsValue (base : Nat) : Nat → List Char → Option Nat
  | acc, [] => some acc
  | acc, c :: cs =>
      match digitValue c with
      | some d => if d < base then digitsValue base (acc * base + d) cs else none
      | none => none

/-- A number, decimal or hexadecimal with `0x` (30_encoding.md R70). -/
def parseNumber : List Char → Option Nat
  | [] => none
  | '0' :: 'x' :: d :: ds => digitsValue 16 0 (d :: ds)
  | c :: cs => digitsValue 10 0 (c :: cs)

/-- Without the blanks at its two ends. -/
def trimBlanks (cs : List Char) : List Char :=
  ((cs.dropWhile Char.isWhitespace).reverse.dropWhile Char.isWhitespace).reverse

/-- The parts of a text between the occurrences of `sep`, each trimmed. -/
def splitAtChar (sep : Char) : List Char → List (List Char)
  | [] => [[]]
  | c :: cs =>
      match splitAtChar sep cs with
      | part :: parts => if c = sep then [] :: part :: parts else (c :: part) :: parts
      | [] => [[c]]

/-- The operands, separated by commas; none where the text is blank. -/
def parseOperands (cs : List Char) : Option (List Nat) :=
  if trimBlanks cs = [] then some []
  else (splitAtChar ',' cs).mapM fun part => parseNumber (trimBlanks part)

/-- The operations a mnemonic and its operands stand for; an operand wider than its field is no operation
(30_encoding.md R60, R61, R71). -/
def assembleOperation (c : Config) (mnemonic : String) (operands : List Nat) : Option (List Instr) :=
  match mnemonic, operands with
  | "INIT", [] => some [.init]
  | "EDGE", [t] => if t < 2 ^ c.width then some [.edge t] else none
  | "POLL", [] => some [.poll]
  | "DECODE", [] => some [.decode]
  | "RDFRAME", [] => some [.rdFrame]
  | "RDSTATE", [] => some [.rdState]
  | "MATCH", [m, cls] =>
      if m < 2 ^ c.width ∧ cls < 8 then some [.matchPort m (BitVec.ofNat 3 cls)] else none
  | "STEP", [st, pos, frame, d, tot] =>
      if st < 8 ∧ pos < 64 ∧ frame < 2 ^ 32 ∧ d < 2 ^ c.width ∧ tot < 2 ^ c.width then
        some [.stepPort (BitVec.ofNat 3 st) (BitVec.ofNat 6 pos) (BitVec.ofNat 32 frame) d tot]
      else none
  | "NECFRAME", [a, b, t0] => some (necFrame c (BitVec.ofNat 16 a) (BitVec.ofNat 16 b) t0)
  | "NECFRAME_STOP", [a, b, t0] => some (necFrameStop c (BitVec.ofNat 16 a) (BitVec.ofNat 16 b) t0)
  | "NECREPEAT", [t0] => some (necRepeat c t0)
  | "EDGES", [t0, step, n] => some (edgesEvery c t0 step n)
  | _, _ => none

/-- The line's `E:` or `H:` mark, if it has one, and what follows it (30_encoding.md R70). -/
def parseIssuer : List Char → Option Agent × List Char
  | 'E' :: ':' :: cs => (some .edgeSource, cs)
  | 'H' :: ':' :: cs => (some .host, cs)
  | cs => (none, cs)

/-- One line: a comment begins at `;`, a blank line is no operation, and without a mark EDGE is issued by the edge
source and every other operation by the host (30_encoding.md R70). -/
def assembleLine (c : Config) (line : List Char) : Option (List (Agent × Instr)) :=
  let text := trimBlanks (line.takeWhile fun ch => ch ≠ ';')
  let (issuer, text) := parseIssuer text
  let text := trimBlanks text
  match text with
  | [] => some []
  | _ => do
      let operands ← parseOperands (text.dropWhile fun ch => !ch.isWhitespace)
      let ops ← assembleOperation c (String.ofList (text.takeWhile fun ch => !ch.isWhitespace)) operands
      return ops.map fun i => (issuer.getD (defaultIssuer i), i)

/-- A text of one operation per line (30_encoding.md R70). -/
def assemble (c : Config) (text : String) : Option (List (Agent × Instr)) :=
  ((splitAtChar '\n' text.toList).mapM (assembleLine c)).map List.flatten

/-- The agents issue a sequence of operations, in that order, after everything already waiting. -/
def State.issueAll (s : State) (ops : List (Agent × Instr)) : State :=
  ops.foldl (fun s op => s.issue op.1 op.2) s

end Sys2Proof.Machine
end

