-- ==== Sys2Proof/Safety.lean ====
section
/-! DEFINITION. The terms the statements use: the invariants the spec gives the block, the runs it can make, what a
buffer holds, and the scan read as a plain recursion over durations. -/

namespace Sys2Proof.Machine

/-! ### The invariants of the block -/

/-- Which positions go with which decoder state (10_state.md R28). -/
abbrev positionLegal (st : DecoderState) (pos : BitVec 6) : Prop :=
  match st with
  | .noSignal => pos = 0
  | .seekingLeadSpace => pos = 0
  | .repeatCode => pos = 0
  | .seekingBurst => pos.toNat ≤ 31
  | .readingBits => pos.toNat ≤ 31
  | .frameComplete => pos = 32

/-- The invariants that hold after every operation (10_state.md R24, R26, R28; 20_memory.md R40). -/
structure State.Inv (s : State) : Prop where
  /-- The parameters keep their bounds (00_scope.md R6 to R8). -/
  params : s.cfg.wf
  /-- `0 <= w <= CAP` (R26). -/
  length : s.w ≤ s.cfg.cap
  /-- The buffer is in canonical form. -/
  canonical : s.buf.wf = true
  /-- Every listed entry is a `W`-bit value at an index below `CAP` (R20, R40). -/
  entries : ∀ e ∈ s.buf, e.1 < s.cfg.cap ∧ e.2 < 2 ^ s.cfg.width
  /-- Every entry below `w` has been recorded (R26). -/
  recorded : ∀ i < s.w, (s.buf.read i).isSome = true
  /-- The state and the position go together (R28). -/
  position : positionLegal s.st s.pos
  /-- Capture is not suspended between operations (R24). -/
  resumed : s.capSusp = false

/-! ### Runs -/

/-- The same block with other input waiting: the agents may issue anything, in any order (00_scope.md R12). -/
def State.withInput (s : State) (hostIn edgeIn : List Byte) (order : List Agent) : State :=
  { s with hostIn := hostIn, edgeIn := edgeIn, order := order }

/-- The states of every run: from power-on with any parameters within their bounds, under any input. -/
inductive Reachable : State → Prop where
  | powerOn (c : Config) (h : c.wf) : Reachable (State.powerOn c)
  | input (s : State) (hostIn edgeIn : List Byte) (order : List Agent) (h : Reachable s) :
      Reachable (s.withInput hostIn edgeIn order)
  | step (s t : State) (h : Reachable s) (hst : Machine.step s = .next t) : Reachable t

/-- A sequence of operations, each run on the state the one before it leaves. -/
def execAll : List Instr → State → Host.Outcome State Fault Refusal
  | [], s => .next s
  | i :: is, s =>
      match exec i s with
      | .next t => execAll is t
      | .fault f => .fault f
      | .refused r => .refused r

/-! ### What a buffer holds, and the scan over it -/

/-- `buf[0..w-1]` is exactly this sequence of timestamps (10_state.md R26). -/
structure State.Holds (s : State) (times : List Nat) : Prop where
  length : s.w = times.length
  fits : times.length ≤ s.cfg.cap
  entry : ∀ (k : Nat) (h : k < times.length), s.buf.read k = some times[k]

/-- `d_k` of a sequence of timestamps (42_decoder.md R102). -/
def deltaAt (c : Config) (times : List Nat) (k : Nat) : Nat :=
  elapsed c (times.getD k 0) (times.getD (k - 1) 0)

/-- `tot_k` of a sequence of timestamps (42_decoder.md R103). -/
def totalAt (c : Config) (times : List Nat) (k : Nat) : Nat :=
  if 2 ≤ k then elapsed c (times.getD k 0) (times.getD (k - 2) 0) else deltaAt c times k

/-- Every `(d_k, tot_k)`, for `k = 1 .. n-1` (42_decoder.md R100). -/
def durationsOf (c : Config) (times : List Nat) : List (Nat × Nat) :=
  (List.range (times.length - 1)).map fun j => (deltaAt c times (j + 1), totalAt c times (j + 1))

/-- The transition function iterated over the durations, stopping where it says so (42_decoder.md R100, R111). -/
def scanDurations (p : MissPolicy) : List (Nat × Nat) → DecoderRegs → DecoderRegs
  | [], r => r
  | (d, tot) :: rest, r =>
      if (transition p r d tot).stop then (transition p r d tot).regs
      else scanDurations p rest (transition p r d tot).regs

/-- What a scan of that sequence of timestamps leaves in `st`, `pos` and `frame` (42_decoder.md R100). -/
def decodeTimes (c : Config) (times : List Nat) : DecoderRegs :=
  scanDurations c.missPolicy (durationsOf c times) decoderReset

/-- The decoder's three elements of a state. -/
def State.decoder (s : State) : DecoderRegs := ⟨s.st, s.pos, s.frame⟩

end Sys2Proof.Machine
end

