-- ==== Sys2Proof/Certificates/Slice0/Obligations.lean ====
section
/-! DEFINITION. The statements for the provers, each from the numbered rules of spec/. -/

open Sys2Proof Sys2Proof.Machine

/-! ### The command stream -/

/-- Decoding an encoded operation gives it back, whatever follows it, for every operation whose operands fit their
fields and for every `W` (30_encoding.md R60, R61, R63). For a `W` other than 32 the byte layout is the model's
(assumption log 3, DEDUCED). It rests on the spec's own choice (92_eei_decisions.md D2). -/
def Obligations.DecodeOfEncodeIsTheOperation : Prop :=
  ∀ (c : Config) (i : Instr) (rest : List Byte), i.fits c → decode c (encode c i ++ rest) = .ok (i, rest)

/-- Every operation has one encoding only: what the decoder accepts is the encoding of what it answers (30_encoding.md
R60 to R63). That STEP's padding bits must be 0 is the model's reading (assumption log 3). It rests on the spec's own
choice (92_eei_decisions.md D2). -/
def Obligations.DecodedBytesAreTheEncoding : Prop :=
  ∀ (c : Config) (bytes rest : List Byte) (i : Instr),
    decode c bytes = .ok (i, rest) → bytes = encode c i ++ rest ∧ i.fits c

/-- Words written out from 30_encoding.md R61 and R63 and from the encodings of 95_test_vectors.md decode to the
operations they stand for. It rests on the spec's own choice (92_eei_decisions.md D2). -/
def Obligations.WrittenOutWordsDecode : Prop :=
  decode Config.testVectors [0x01#8] = .ok (.init, []) ∧
  decode Config.testVectors [0x02#8, 0x00#8, 0x00#8, 0x38#8, 0xA4#8] = .ok (.edge 14500, []) ∧
  decode Config.testVectors [0x03#8] = .ok (.poll, []) ∧
  decode Config.testVectors [0x07#8, 0x00#8, 0x00#8, 0x2D#8, 0xB4#8, 0x00#8] = .ok (.matchPort 11700 0, []) ∧
  decode Config.testVectors [0x08#8, 0x03#8, 0x05#8, 0x00#8, 0x00#8, 0x00#8, 0x14#8, 0x00#8, 0x00#8, 0x06#8, 0x9A#8,
    0x00#8, 0x00#8, 0x08#8, 0xCA#8] = .ok (.stepPort 3 5 0x14 1690 2250, [])

/-- Every reserved command byte, class selector and STEP operand is refused under its name, as 60_exceptions.md R151
and 30_encoding.md R62 say. That a refusal then ends the run for good is the model's choice of the mark R151 asks
for (assumption log 11, DESIGN CHOICE), and the streams are the model's own (assumption log 2). A byte reserved in
both ways is refused under one of the two names. It rests on the spec's own choice (92_eei_decisions.md D2). -/
def Obligations.ReservedOperationsAreRefusedByName : Prop :=
  (∀ (s : State) (a : Agent) (order : List Agent) (b : Byte) (bytes : List Byte),
    s.order = a :: order → s.stream a = b :: bytes →
      ((b.toNat % 16 = 0 ∨ 9 ≤ b.toNat % 16) → b.toNat / 16 = 0 → step s = .refused .reservedOpcode) ∧
      ((1 ≤ b.toNat % 16 ∧ b.toNat % 16 ≤ 8) → b.toNat / 16 ≠ 0 → step s = .refused .reservedCommandBits) ∧
      ((b.toNat % 16 = 0 ∨ 9 ≤ b.toNat % 16) → b.toNat / 16 ≠ 0 →
        step s = .refused .reservedOpcode ∨ step s = .refused .reservedCommandBits)) ∧
  (∀ (s : State) (m : Nat) (cls : BitVec 3), 6 ≤ cls.toNat →
    exec (.matchPort m cls) s = .refused .reservedClassSelector) ∧
  (∀ (s : State) (st : BitVec 3) (pos : BitVec 6) (frame : Frame) (d tot : Nat),
    (3 < st.toNat ∨ 31 < pos.toNat) →
    exec (.stepPort st pos frame d tot) s = .refused .illFormedStepOperands) ∧
  (∀ (s t : State) (n k : Nat) (r : Refusal),
    Host.Core.run Sys2Proof.core n s = .next t → step t = .refused r →
    Host.Core.run Sys2Proof.core (n + 1 + k) s = .refused r)

/-! ### One step -/

/-- When the bytes at the front of the stream of the agent whose turn it is decode to an operation it may issue, a
step is the meaning of that operation on the state with those bytes and that turn consumed and the agent noted;
nothing else is changed before the meaning runs. The streams and the order are the model's (assumption log 2). It
rests on the spec's own choice (92_eei_decisions.md D1). -/
def Obligations.StepRunsTheDecodedOperation : Prop :=
  ∀ (s : State) (a : Agent) (order : List Agent) (i : Instr) (rest : List Byte),
    s.order = a :: order → decode s.cfg (s.stream a) = .ok (i, rest) → mayIssue a i = true →
    ∃ t, step s = exec i t ∧
      t.stream a = rest ∧ (∀ b, b ≠ a → t.stream b = s.stream b) ∧ t.order = order ∧ t.issuer = a ∧
      t.cfg = s.cfg ∧ t.buf = s.buf ∧ t.w = s.w ∧ t.st = s.st ∧ t.pos = s.pos ∧ t.frame = s.frame ∧
      t.capEn = s.capEn ∧ t.capSusp = s.capSusp ∧ t.replies = s.replies

/-- An operation an agent issues while nothing else is waiting is the very next operation that runs, and its result
goes to that agent (00_scope.md R12, 30_encoding.md R60; the streams are the model's, assumption log 2). It rests on
the spec's own choice (92_eei_decisions.md D1 and D2). -/
def Obligations.IssuedOperationRunsNext : Prop :=
  ∀ (s : State) (a : Agent) (i : Instr),
    s.order = [] → s.stream a = [] → mayIssue a i = true → i.fits s.cfg →
    step (s.issue a i) = exec i { s with issuer := a }

/-- The host cannot issue EDGE, and the edge source cannot issue INIT, POLL or DECODE (00_scope.md R12,
43_host_interface.md R137, 60_exceptions.md R158). That the attempt is refused is the model's choice (assumption
log 5). -/
def Obligations.EachAgentIssuesOnlyItsOwnOperations : Prop :=
  ∀ (s : State) (a : Agent) (order : List Agent) (i : Instr) (rest : List Byte),
    s.order = a :: order → decode s.cfg (s.stream a) = .ok (i, rest) →
    ((a = .host ∧ ∃ t, i = .edge t) ∨ (a = .edgeSource ∧ (i = .init ∨ i = .poll ∨ i = .decode))) →
    step s = .refused .wrongIssuer

/-! ### Power-on and the invariants -/

/-- The power-on values, for every choice of the parameters and for the machine's own reset state
(70_reset_and_hazards.md R170). `buf` holds no value. It rests on the spec's own choice (92_eei_decisions.md D18). -/
def Obligations.PowerOnValues : Prop :=
  ∀ s : State, (s = State.reset ∨ ∃ c, s = State.powerOn c) →
    (∀ k, s.buf.read k = none) ∧ s.w = 0 ∧ s.st = .noSignal ∧ s.pos = 0 ∧ s.frame = 0 ∧
    addressOf s.frame = 0 ∧ commandOf s.frame = 0 ∧ s.capEn = false ∧ s.capSusp = false

/-- The invariants hold right after power-on. It rests on the spec's own choice (92_eei_decisions.md D18). -/
def Obligations.PowerOnMeetsTheInvariants : Prop :=
  State.reset.Inv ∧ ∀ c : Config, c.wf → (State.powerOn c).Inv

/-- Every step keeps the invariants: the bound on `w`, the canonical form of `buf`, a `W`-bit value in every entry
below `w`, the legal pairs of decoder state and position, and capture resumed (10_state.md R24, R26, R28). -/
def Obligations.StepKeepsTheInvariants : Prop :=
  ∀ s t : State, s.Inv → step s = .next t → t.Inv

/-- No run, with any parameters and any input, meets a fault (60_exceptions.md R150): neither a read of an entry
that holds no value nor an edge inside the critical section. -/
def Obligations.NoRunMeetsAFault : Prop :=
  ∀ (s : State) (f : Fault), Reachable s → step s ≠ .fault f

/-- Every operation that is not reserved or ill formed completes in every state that meets the invariants
(60_exceptions.md R150, 42_decoder.md R119). -/
def Obligations.EveryLegalOperationCompletes : Prop :=
  ∀ (s : State) (i : Instr), s.Inv →
    (∀ m cls, i = .matchPort m cls → cls.toNat ≤ 5) →
    (∀ st pos frame d tot, i = .stepPort st pos frame d tot → st.toNat ≤ 3 ∧ pos.toNat ≤ 31) →
    ∃ t, exec i s = .next t ∧ t.Inv

/-- Each element of the state is written only by the operations 10_state.md R20 names for it (R25): `buf` by EDGE,
`w` by EDGE, which increments it, and by POLL, which sets it to 0. No operation touches the parameters or what the
agents have yet to issue, and none returns more than one value. -/
def Obligations.ElementsAreWrittenOnlyByTheirOperations : Prop :=
  ∀ (s t : State) (i : Instr), exec i s = .next t →
    (t.buf ≠ s.buf → ∃ time, i = .edge time) ∧
    (t.w ≠ s.w → (∃ time, i = .edge time) ∧ t.w = s.w + 1 ∨ i = .poll ∧ t.w = 0) ∧
    (t.st ≠ s.st ∨ t.pos ≠ s.pos ∨ t.frame ≠ s.frame → i = .poll ∨ i = .decode) ∧
    (t.capEn ≠ s.capEn → i = .init) ∧
    (t.capSusp ≠ s.capSusp → (i = .poll ∨ i = .decode) ∧ t.capSusp = false) ∧
    t.cfg = s.cfg ∧ t.hostIn = s.hostIn ∧ t.edgeIn = s.edgeIn ∧ t.order = s.order ∧ t.issuer = s.issuer ∧
    (t.replies = s.replies ∨ ∃ r, t.replies = s.replies ++ [(s.issuer, r)])

/-! ### INIT and EDGE -/

/-- INIT, command byte 0x01, sets `cap_en`, changes nothing else, and changes nothing at all when `cap_en` is already
true; from power-on it is what makes an EDGE be recorded (43_host_interface.md R130). It rests on the spec's own
choice (92_eei_decisions.md D14 and D15). -/
def Obligations.InitOnlyEnablesCapture : Prop :=
  ∀ s : State, exec .init s = .next { s with capEn := true } ∧
    (s.capEn = true → exec .init s = .next s) ∧ encode s.cfg .init = [0x01#8] ∧
    (∀ (c : Config) (time : Nat), c.wf → time < 2 ^ c.width →
      exec (.edge time) (State.powerOn c) = .next (State.powerOn c) ∧
      ∃ t, execAll [.init, .edge time] (State.powerOn c) = .next t ∧ t.w = 1 ∧ t.buf.read 0 = some time)

/-- `cap_en` becomes true by INIT, no step sets it false again, and while it is false EDGE has no effect (10_state.md
R23). It rests on the spec's own choice (92_eei_decisions.md D14 and D27). -/
def Obligations.CaptureStaysEnabledAfterInit : Prop :=
  (∀ s t : State, exec .init s = .next t → t.capEn = true) ∧
  (∀ s t : State, step s = .next t → s.capEn = true → t.capEn = true) ∧
  (∀ (s t : State) (i : Instr), exec i s = .next t → s.capEn = false → i ≠ .init → t.capEn = false) ∧
  (∀ (s : State) (time : Nat), s.capEn = false → s.capSusp = false → exec (.edge time) s = .next s)

/-- EDGE T, command byte 0x02 and then T: with capture enabled and the buffer not full it writes T at `buf[w]`,
leaves every other entry, and increments `w`; with the buffer full or the recorder not installed it changes nothing
(40_recorder.md R80). Every state element but `buf` and `w` is unchanged. It rests on the spec's own choice
(92_eei_decisions.md D14). The bytes for a `W` other than 32 are the model's own layout (assumption log 3, DEDUCED),
not the rule's. -/
def Obligations.EdgeRecordsOrChangesNothing : Prop :=
  ∀ (s : State) (time : Nat), s.capSusp = false → time < 2 ^ s.cfg.width →
    (s.capEn = true → s.w < s.cfg.cap →
      ∃ t, exec (.edge time) s = .next t ∧ t.w = s.w + 1 ∧ t.buf.read s.w = some time ∧
        (∀ k, k ≠ s.w → t.buf.read k = s.buf.read k) ∧ t = { s with buf := t.buf, w := t.w }) ∧
    (s.capEn = true → s.cfg.cap ≤ s.w → exec (.edge time) s = .next s) ∧
    (s.capEn = false → exec (.edge time) s = .next s) ∧
    encode s.cfg (.edge time) = 0x02#8 :: beBytes (fieldBytes s.cfg.width) time

/-- A transition dropped because the buffer is full leaves no trace: whatever operations follow, they run as if it
had not been issued (40_recorder.md R85, 20_memory.md R52). -/
def Obligations.DroppedEdgeLeavesNoTrace : Prop :=
  ∀ (s : State) (time : Nat) (later : List Instr), s.capSusp = false → s.w = s.cfg.cap →
    exec (.edge time) s = .next s ∧ execAll (.edge time :: later) s = execAll later s

/-- Edges are recorded in order behind what is already there, up to the capacity, and the rest are dropped
(10_state.md R26, 20_memory.md R52, 40_recorder.md R84). -/
def Obligations.EdgesRecordInOrderUpToCapacity : Prop :=
  ∀ (s : State) (times : List Nat), s.Inv → s.capEn = true → (∀ x ∈ times, x < 2 ^ s.cfg.width) →
    ∃ t, execAll (times.map Instr.edge) s = .next t ∧ t.w = min s.cfg.cap (s.w + times.length) ∧
      (∀ (k : Nat) (h : k < times.length), s.w + k < s.cfg.cap → t.buf.read (s.w + k) = some times[k]) ∧
      (∀ k, k < s.w → t.buf.read k = s.buf.read k) ∧ t = { s with buf := t.buf, w := t.w }

/-- EDGE is never performed while capture is suspended (40_recorder.md R83). That the attempt is a fault is the
model's choice (assumption log 9). -/
def Obligations.SuspendedEdgeIsAFault : Prop :=
  ∀ (s : State) (time : Nat), s.capSusp = true → exec (.edge time) s = .fault .edgeWhileSuspended

/-! ### The comparator -/

/-- The predicate is `|m - c| * 10 <= c * 3` on the integers, and equally the window from `ceil(7c/10)` to
`floor(13c/10)`, both bounds included; a duration of 0 matches nothing; for the six canonical durations both bounds
are exact integers (41_comparator.md R90, R93). It rests on the spec's own choice (92_eei_decisions.md D7). -/
def Obligations.ComparatorIsTheToleranceWindow : Prop :=
  (∀ m c : Nat, 0 < c →
    (toleranceMatch m c = true ↔ |(m : Int) - (c : Int)| * 10 ≤ (c : Int) * 3) ∧
    (toleranceMatch m c = true ↔ (7 * c + 9) / 10 ≤ m ∧ m ≤ 13 * c / 10) ∧
    toleranceMatch 0 c = false) ∧
  (∀ k : DurationClass, 10 ∣ 7 * k.canonical ∧ 10 ∣ 13 * k.canonical)

/-- The six canonical durations and their acceptance windows, both bounds included (30_encoding.md R67). -/
def Obligations.AcceptanceWindows : Prop :=
  DurationClass.agcBurst.canonical = 9000 ∧ DurationClass.startSpacer.canonical = 4500 ∧
  DurationClass.repeatSpacer.canonical = 2250 ∧ DurationClass.bitBurst.canonical = 560 ∧
  DurationClass.zeroBitTotal.canonical = 1120 ∧ DurationClass.oneBitTotal.canonical = 2250 ∧
  ∀ m : Nat,
    (DurationClass.agcBurst.accepts m = true ↔ 6300 ≤ m ∧ m ≤ 11700) ∧
    (DurationClass.startSpacer.accepts m = true ↔ 3150 ≤ m ∧ m ≤ 5850) ∧
    (DurationClass.repeatSpacer.accepts m = true ↔ 1575 ≤ m ∧ m ≤ 2925) ∧
    (DurationClass.bitBurst.accepts m = true ↔ 392 ≤ m ∧ m ≤ 728) ∧
    (DurationClass.zeroBitTotal.accepts m = true ↔ 784 ≤ m ∧ m ≤ 1456) ∧
    (DurationClass.oneBitTotal.accepts m = true ↔ 1575 ≤ m ∧ m ≤ 2925)

/-- The classes one state tests on one quantity never both match, the AGC burst's window meets no other, the repeat
spacer and the one-bit total have the same window, and where the delta is an AGC burst while the total is a bit,
the AGC test is taken first (30_encoding.md R68). -/
def Obligations.ClassesAreUnambiguous : Prop :=
  (∀ m : Nat,
    ¬ (DurationClass.startSpacer.accepts m = true ∧ DurationClass.repeatSpacer.accepts m = true) ∧
    ¬ (DurationClass.zeroBitTotal.accepts m = true ∧ DurationClass.oneBitTotal.accepts m = true) ∧
    (∀ k : DurationClass, k ≠ .agcBurst →
      ¬ (DurationClass.agcBurst.accepts m = true ∧ k.accepts m = true)) ∧
    DurationClass.repeatSpacer.accepts m = DurationClass.oneBitTotal.accepts m) ∧
  (∀ (p : MissPolicy) (pos : BitVec 6) (frame : Frame) (d tot : Nat),
    DurationClass.agcBurst.accepts d = true →
    (DurationClass.zeroBitTotal.accepts tot = true ∨ DurationClass.oneBitTotal.accepts tot = true) →
    transition p ⟨.readingBits, pos, frame⟩ d tot = ⟨⟨.seekingLeadSpace, 0, frame⟩, false⟩)

/-- MATCH, command byte 0x07 and then `m` and `cls`: for a selector 0 to 5 it returns whether `|m - c| * 10 <= c *
3` for the class's canonical duration, and changes nothing; 6 and 7 are refused; 0 and `2^W - 1` match no class;
selectors 2 and 5 agree (41_comparator.md R94). It rests on the spec's own choice (92_eei_decisions.md D24). The
bytes for a `W` other than 32 are the model's own layout (assumption log 3, DEDUCED), not the rule's. -/
def Obligations.MatchPortReturnsTheComparison : Prop :=
  ∀ (s : State) (m : Nat) (cls : BitVec 3), 14 ≤ s.cfg.width → m < 2 ^ s.cfg.width →
    (∀ (h : cls.toNat < 6), ∃ hit : Bool,
      exec (.matchPort m cls) s = .next { s with replies := s.replies ++ [(s.issuer, .hit hit)] } ∧
      (hit = true ↔
        |(m : Int) - (([9000, 4500, 2250, 560, 1120, 2250][cls.toNat] : Nat) : Int)| * 10
          ≤ (([9000, 4500, 2250, 560, 1120, 2250][cls.toNat] : Nat) : Int) * 3) ∧
      (m = 0 ∨ m = 2 ^ s.cfg.width - 1 → hit = false)) ∧
    (6 ≤ cls.toNat → exec (.matchPort m cls) s = .refused .reservedClassSelector) ∧
    exec (.matchPort m 2) s = exec (.matchPort m 5) s ∧
    encode s.cfg (.matchPort m cls) =
      0x07#8 :: (beBytes (fieldBytes s.cfg.width) m ++ [BitVec.ofNat 8 cls.toNat])

/-- The test ports MATCH and STEP read and write no state of the block: in any two states with the same parameters
they return the same value, and all that changes is that value's return (41_comparator.md R92; 42_decoder.md R117
says the same of STEP). -/
def Obligations.TestPortsReadAndWriteNoState : Prop :=
  ∀ (s s' t t' : State) (i : Instr), s.cfg = s'.cfg →
    ((∃ m cls, i = .matchPort m cls) ∨ (∃ st pos frame d tot, i = .stepPort st pos frame d tot)) →
    exec i s = .next t → exec i s' = .next t' →
    ∃ r, t = { s with replies := s.replies ++ [(s.issuer, r)] } ∧
      t' = { s' with replies := s'.replies ++ [(s'.issuer, r)] }

/-! ### The transition function -/

/-- In every non-terminal state a delta in the AGC window restarts from the top: SEEKING_LEAD_SPACE, position 0, the
frame not cleared, no stop, whatever the total is (42_decoder.md R104). It rests on the spec's own choice
(92_eei_decisions.md D10 and D26). -/
def Obligations.ResynchronizationTakesPrecedence : Prop :=
  ∀ (p : MissPolicy) (st : DecoderState) (pos : BitVec 6) (frame : Frame) (d tot : Nat),
    st ≠ .frameComplete → st ≠ .repeatCode → 6300 ≤ d → d ≤ 11700 →
    transition p ⟨st, pos, frame⟩ d tot = ⟨⟨.seekingLeadSpace, 0, frame⟩, false⟩

/-- The whole transition table, for both policies: the AGC row first, then each state's tests in order
(42_decoder.md R114). A bit's frame is given bit by bit. -/
def Obligations.TransitionTable : Prop :=
  ∀ (p : MissPolicy) (pos : BitVec 6) (frame : Frame) (d tot : Nat), pos.toNat ≤ 31 →
    (DurationClass.agcBurst.accepts d = true →
      transition p ⟨.noSignal, 0, frame⟩ d tot = ⟨⟨.seekingLeadSpace, 0, frame⟩, false⟩ ∧
      transition p ⟨.seekingLeadSpace, 0, frame⟩ d tot = ⟨⟨.seekingLeadSpace, 0, frame⟩, false⟩ ∧
      transition p ⟨.seekingBurst, pos, frame⟩ d tot = ⟨⟨.seekingLeadSpace, 0, frame⟩, false⟩ ∧
      transition p ⟨.readingBits, pos, frame⟩ d tot = ⟨⟨.seekingLeadSpace, 0, frame⟩, false⟩) ∧
    (DurationClass.agcBurst.accepts d = false →
      transition p ⟨.noSignal, 0, frame⟩ d tot = ⟨⟨.noSignal, 0, frame⟩, false⟩ ∧
      transition p ⟨.seekingLeadSpace, 0, frame⟩ d tot =
        (if DurationClass.startSpacer.accepts d then ⟨⟨.seekingBurst, 0, frame⟩, false⟩
         else if DurationClass.repeatSpacer.accepts d then ⟨⟨.repeatCode, 0, frame⟩, true⟩
         else if p = .hold then ⟨⟨.seekingLeadSpace, 0, frame⟩, false⟩
         else ⟨⟨.noSignal, 0, frame⟩, false⟩) ∧
      transition p ⟨.seekingBurst, pos, frame⟩ d tot =
        (if DurationClass.bitBurst.accepts d then ⟨⟨.readingBits, pos, frame⟩, false⟩
         else if p = .hold then ⟨⟨.seekingBurst, pos, frame⟩, false⟩
         else ⟨⟨.noSignal, 0, frame⟩, false⟩) ∧
      (∀ b : Bool,
        (DurationClass.zeroBitTotal.accepts tot = true ∧ b = false ∨
          DurationClass.oneBitTotal.accepts tot = true ∧ b = true) →
        ∃ frame' : Frame,
          (∀ j < 32, frame'.getLsbD j = if j = pos.toNat then b else frame.getLsbD j) ∧
          (pos.toNat < 31 → transition p ⟨.readingBits, pos, frame⟩ d tot =
            ⟨⟨.seekingBurst, pos + 1, frame'⟩, false⟩) ∧
          (pos.toNat = 31 → transition p ⟨.readingBits, pos, frame⟩ d tot =
            ⟨⟨.frameComplete, 32, frame'⟩, true⟩)) ∧
      (DurationClass.zeroBitTotal.accepts tot = false → DurationClass.oneBitTotal.accepts tot = false →
        transition p ⟨.readingBits, pos, frame⟩ d tot =
          (if p = .hold then ⟨⟨.readingBits, pos, frame⟩, false⟩ else ⟨⟨.noSignal, 0, frame⟩, false⟩)))

/-- A resolved bit is assigned at its position, 0 clearing it and 1 setting it, and every other bit of the frame is
kept (42_decoder.md R109). It rests on the spec's own choice (92_eei_decisions.md D11). -/
def Obligations.BitWriteAssignsOneBit : Prop :=
  ∀ (frame : Frame) (pos : Nat) (b : Bool), pos < 32 →
    ∀ j < 32, (writeBit frame pos b).getLsbD j = if j = pos then b else frame.getLsbD j

/-- A classification miss in SEEKING_LEAD_SPACE, SEEKING_BURST or READING_BITS, at any position: under HOLD nothing
changes, under ABANDON the state becomes NO_SIGNAL and the position 0; no bit is written under either (42_decoder.md
R112, 00_scope.md R9). That a miss under HOLD in SEEKING_LEAD_SPACE keeps a position other than 0 is the model's
reading of R106 and R112 beside R114 (assumption log 13, DEDUCED). -/
def Obligations.MissFollowsThePolicy : Prop :=
  ∀ (st : DecoderState) (pos : BitVec 6) (frame : Frame) (d tot : Nat),
    DurationClass.agcBurst.accepts d = false →
    ((st = .seekingLeadSpace ∧ DurationClass.startSpacer.accepts d = false ∧
        DurationClass.repeatSpacer.accepts d = false) ∨
     (st = .seekingBurst ∧ DurationClass.bitBurst.accepts d = false) ∨
     (st = .readingBits ∧ DurationClass.zeroBitTotal.accepts tot = false ∧
        DurationClass.oneBitTotal.accepts tot = false)) →
    transition .hold ⟨st, pos, frame⟩ d tot = ⟨⟨st, pos, frame⟩, false⟩ ∧
    transition .abandon ⟨st, pos, frame⟩ d tot = ⟨⟨.noSignal, 0, frame⟩, false⟩

/-- A transition from a non-terminal state stops exactly where it enters a terminal one, and it moves along the
order NO_SIGNAL, SEEKING_LEAD_SPACE, SEEKING_BURST and READING_BITS in turn, FRAME_COMPLETE, or from
SEEKING_LEAD_SPACE to REPEAT_CODE, but for a resynchronization and a miss under ABANDON (42_decoder.md R111,
R122). -/
def Obligations.TransitionsFollowTheStateOrder : Prop :=
  ∀ (p : MissPolicy) (r : DecoderRegs) (d tot : Nat),
    r.st ≠ .frameComplete → r.st ≠ .repeatCode →
    ((transition p r d tot).stop = true ↔
      (transition p r d tot).regs.st = .frameComplete ∨ (transition p r d tot).regs.st = .repeatCode) ∧
    (DurationClass.agcBurst.accepts d = true → (transition p r d tot).regs.st = .seekingLeadSpace) ∧
    (DurationClass.agcBurst.accepts d = false →
      (transition p r d tot).regs.st = r.st ∨
      (p = .abandon ∧ (transition p r d tot).regs.st = .noSignal) ∨
      (r.st = .seekingLeadSpace ∧ (transition p r d tot).regs.st = .seekingBurst) ∨
      (r.st = .seekingLeadSpace ∧ (transition p r d tot).regs.st = .repeatCode) ∨
      (r.st = .seekingBurst ∧ (transition p r d tot).regs.st = .readingBits) ∨
      (r.st = .readingBits ∧ (transition p r d tot).regs.st = .seekingBurst) ∨
      (r.st = .readingBits ∧ (transition p r d tot).regs.st = .frameComplete))

/-- STEP, command byte 0x08 and then its operands: for a non-terminal state code and a position 0 to 31 it returns
one transition of those operands and changes nothing; other operands are refused; and the rule's corner cases
(42_decoder.md R117). It rests on the spec's own choice (92_eei_decisions.md D24). The bytes for a `W` other than 32
are the model's own layout (assumption log 3, DEDUCED), not the rule's. A miss under HOLD, or a spacer, in state 1
at a position other than 0 keeps the position (assumption log 13, DEDUCED). -/
def Obligations.StepPortReturnsOneTransition : Prop :=
  ∀ (s : State) (st : BitVec 3) (pos : BitVec 6) (frame : Frame) (d tot : Nat),
    d < 2 ^ s.cfg.width → tot < 2 ^ s.cfg.width →
    (∀ q : DecoderState, q.code = st → st.toNat ≤ 3 → pos.toNat ≤ 31 →
      exec (.stepPort st pos frame d tot) s = .next { s with
        replies := s.replies ++ [(s.issuer, .stepped
          (transition s.cfg.missPolicy ⟨q, pos, frame⟩ d tot).regs.st.code
          (transition s.cfg.missPolicy ⟨q, pos, frame⟩ d tot).regs.pos
          (transition s.cfg.missPolicy ⟨q, pos, frame⟩ d tot).regs.frame
          (transition s.cfg.missPolicy ⟨q, pos, frame⟩ d tot).stop)] }) ∧
    (3 < st.toNat ∨ 31 < pos.toNat →
      exec (.stepPort st pos frame d tot) s = .refused .illFormedStepOperands) ∧
    (st.toNat ≤ 3 → pos.toNat ≤ 31 → 6300 ≤ d → d ≤ 11700 →
      exec (.stepPort st pos frame d tot) s =
        .next { s with replies := s.replies ++ [(s.issuer, .stepped 1 0 frame false)] }) ∧
    (pos.toNat ≤ 31 → ¬ (6300 ≤ d ∧ d ≤ 11700) →
      exec (.stepPort 0 pos frame d tot) s =
        .next { s with replies := s.replies ++ [(s.issuer, .stepped 0 pos frame false)] }) ∧
    (¬ (6300 ≤ d ∧ d ≤ 11700) → (784 ≤ tot ∧ tot ≤ 1456 ∨ 1575 ≤ tot ∧ tot ≤ 2925) →
      ∃ frame', exec (.stepPort 3 31 frame d tot) s =
        .next { s with replies := s.replies ++ [(s.issuer, .stepped 4 32 frame' true)] }) ∧
    encode s.cfg (.stepPort st pos frame d tot) =
      0x08#8 :: ([BitVec.ofNat 8 st.toNat, BitVec.ofNat 8 pos.toNat] ++ beBytes 4 frame.toNat
        ++ beBytes (fieldBytes s.cfg.width) d ++ beBytes (fieldBytes s.cfg.width) tot)

/-! ### The scan -/

/-- Subtraction modulo `2^W` makes a delta the elapsed time, across a wrap of the time source too, as long as that
time is below `2^W` (42_decoder.md R102, 70_reset_and_hazards.md R181). It rests on the spec's own choice
(92_eei_decisions.md D6). -/
def Obligations.DeltaIsTheElapsedTimeAcrossAWrap : Prop :=
  ∀ (s : State) (k : Nat) (start time : Nat), 1 ≤ k → k < s.w → k < s.cfg.cap → time < 2 ^ s.cfg.width →
    s.buf.read (k - 1) = some (start % 2 ^ s.cfg.width) →
    s.buf.read k = some ((start + time) % 2 ^ s.cfg.width) → s.delta k = .ok time

/-- The total is the sum of the last two deltas modulo `2^W`, and `d_1` for `k = 1` (42_decoder.md R103). It rests on
the spec's own choice (92_eei_decisions.md D6 and D8). -/
def Obligations.TotalIsTheSumOfTwoDeltas : Prop :=
  (∀ (s : State) (k : Nat) (d d' : Nat), 2 ≤ k → s.delta (k - 1) = .ok d → s.delta k = .ok d' →
    s.total k = .ok ((d' + d) % 2 ^ s.cfg.width)) ∧
  (∀ s : State, s.total 1 = s.delta 1)

/-- DECODE, command byte 0x04, runs at every `w`: it leaves in `st`, `pos` and `frame` what the transition function
gives, iterated over the durations of the recorded entries from NO_SIGNAL, position 0 and frame 0 up to the first
stop; it changes neither `buf` nor `w`, and returns nothing. With at most one entry that is NO_SIGNAL, 0 and 0
(43_host_interface.md R132, 42_decoder.md R100). It rests on the spec's own choice (92_eei_decisions.md D12 and D25). -/
def Obligations.DecodeScansTheRecordedEntries : Prop :=
  ∀ (s : State) (times : List Nat), s.Holds times →
    exec .decode s = .next { s with
      st := (scanDurations s.cfg.missPolicy (durationsOf s.cfg times) ⟨.noSignal, 0, 0⟩).st
      pos := (scanDurations s.cfg.missPolicy (durationsOf s.cfg times) ⟨.noSignal, 0, 0⟩).pos
      frame := (scanDurations s.cfg.missPolicy (durationsOf s.cfg times) ⟨.noSignal, 0, 0⟩).frame
      capSusp := false } ∧
    (s.w ≤ 1 → exec .decode s = .next { s with st := .noSignal, pos := 0, frame := 0, capSusp := false }) ∧
    encode s.cfg .decode = [0x04#8]

/-- POLL, command byte 0x03: below the threshold it returns false and changes nothing else; from the threshold on it
leaves what the scan gives in `st`, `pos` and `frame`, sets `w` to 0, leaves `buf` in place, and returns true,
whatever the scan ended in (43_host_interface.md R131). It rests on the spec's own choice (92_eei_decisions.md D13 and
D32). -/
def Obligations.PollDecodesFromTheThresholdOn : Prop :=
  ∀ (s : State) (times : List Nat), s.Holds times →
    (s.w < s.cfg.thr → exec .poll s =
      .next { s with replies := s.replies ++ [(s.issuer, .ready false)] }) ∧
    (s.cfg.thr ≤ s.w → exec .poll s = .next { s with
      st := (scanDurations s.cfg.missPolicy (durationsOf s.cfg times) ⟨.noSignal, 0, 0⟩).st
      pos := (scanDurations s.cfg.missPolicy (durationsOf s.cfg times) ⟨.noSignal, 0, 0⟩).pos
      frame := (scanDurations s.cfg.missPolicy (durationsOf s.cfg times) ⟨.noSignal, 0, 0⟩).frame
      w := 0
      capSusp := false
      replies := s.replies ++ [(s.issuer, .ready true)] }) ∧
    encode s.cfg .poll = [0x03#8]

/-- Every scan starts from NO_SIGNAL, position 0 and frame 0: what an earlier decode left in `st`, `pos` and `frame`
has no effect on a DECODE, or on a POLL that decodes, whether it succeeds or not, and a scan with no delta leaves
exactly those values (42_decoder.md R101). -/
def Obligations.EveryScanStartsFromTheReset : Prop :=
  ∀ (s : State) (r : DecoderRegs),
    exec .decode (s.setDecoder r) = exec .decode s ∧
    (s.cfg.thr ≤ s.w → exec .poll (s.setDecoder r) = exec .poll s) ∧
    (s.w ≤ 1 → exec .decode s = .next { s with st := .noSignal, pos := 0, frame := 0, capSusp := false })

/-- The scan is a function of the recorded entries, `W` and MISS_POLICY alone, so decoding twice with no edge in
between gives the identical result (42_decoder.md R118). -/
def Obligations.DecodingTwiceGivesTheSameResult : Prop :=
  (∀ s t : State, exec .decode s = .next t → exec .decode t = .next t) ∧
  (∀ (s s' t t' : State) (times : List Nat), s.Holds times → s'.Holds times →
    s.cfg.width = s'.cfg.width → s.cfg.missPolicy = s'.cfg.missPolicy →
    exec .decode s = .next t → exec .decode s' = .next t' →
    t.st = t'.st ∧ t.pos = t'.pos ∧ t.frame = t'.frame)

/-- A POLL that reaches the threshold sets `w` to 0 and leaves the contents of `buf` in place, where no read reaches
them; DECODE does not reset capture; INIT resets nothing (70_reset_and_hazards.md R172). It rests on the spec's own
choice (92_eei_decisions.md D12, D13 and D15). -/
def Obligations.PollResetsCaptureDecodeAndInitDoNot : Prop :=
  (∀ s t : State, s.cfg.thr ≤ s.w → exec .poll s = .next t →
    t.w = 0 ∧ t.buf = s.buf ∧ ∀ k v, t.readEntry k ≠ .ok v) ∧
  (∀ s t : State, exec .decode s = .next t → t.w = s.w ∧ t.buf = s.buf) ∧
  (∀ s t : State, exec .init s = .next t →
    t.w = s.w ∧ t.buf = s.buf ∧ t.st = s.st ∧ t.pos = s.pos ∧ t.frame = s.frame)

/-- Entries recorded after a scan that ended in FRAME_COMPLETE or REPEAT_CODE are never examined by the next DECODE:
it gives the same result (42_decoder.md R111, 10_state.md R31). -/
def Obligations.LaterEdgesDoNotChangeAFinishedScan : Prop :=
  ∀ (s s' t t' : State) (times more : List Nat), s.Holds times → s'.Holds (times ++ more) → s.cfg = s'.cfg →
    exec .decode s = .next t → (t.st = .frameComplete ∨ t.st = .repeatCode) →
    exec .decode s' = .next t' → t'.st = t.st ∧ t'.pos = t.pos ∧ t'.frame = t.frame

/-- A buffer with no delta in the AGC window decodes to NO_SIGNAL, position 0 and a zeroed frame, under both
policies (95_test_vectors.md L1-4, 42_decoder.md R105). -/
def Obligations.NoSynchronizationWithoutAnAgcBurst : Prop :=
  ∀ (s : State) (times : List Nat), s.Holds times →
    (∀ k, 1 ≤ k → k < times.length → DurationClass.agcBurst.accepts (deltaAt s.cfg times k) = false) →
    exec .decode s = .next { s with st := .noSignal, pos := 0, frame := 0, capSusp := false }

/-- A buffer that begins with an AGC burst and then a repeat spacer decodes to REPEAT_CODE, position 0 and a zeroed
frame, whatever follows and under both policies (95_test_vectors.md L1-3, 42_decoder.md R106). -/
def Obligations.RepeatCodeEndsTheScan : Prop :=
  ∀ (s : State) (times : List Nat), s.Holds times → 3 ≤ times.length →
    6300 ≤ deltaAt s.cfg times 1 → deltaAt s.cfg times 1 ≤ 11700 →
    1575 ≤ deltaAt s.cfg times 2 → deltaAt s.cfg times 2 ≤ 2925 →
    exec .decode s = .next { s with st := .repeatCode, pos := 0, frame := 0, capSusp := false }

/-- The round trip of the document's first testable property, with noise before the frame and anything after it:
where the buffer holds the 67 timestamps of a frame with that address and command, and no delta up to its first edge
is an AGC burst, DECODE ends in FRAME_COMPLETE with exactly that address and command, for every `W` and under both
policies (00_scope.md R19, 42_decoder.md R120, 70_reset_and_hazards.md R174). It rests on the spec's own choices
(92_eei_decisions.md D6, D8 and D11). -/
def Obligations.FrameRoundTrip : Prop :=
  ∀ (s : State) (noise tail : List Nat) (address command : BitVec 16) (t0 : Nat), s.cfg.wf →
    s.Holds (noise ++ (frameTimes (frameOf address command) t0).map (fun x => x % 2 ^ s.cfg.width) ++ tail) →
    (∀ k, 1 ≤ k → k ≤ noise.length → DurationClass.agcBurst.accepts
      (deltaAt s.cfg (noise ++ [t0 % 2 ^ s.cfg.width]) k) = false) →
    ∃ t, exec .decode s = .next t ∧ t.st = .frameComplete ∧ t.pos = 32 ∧
      addressOf t.frame = address ∧ commandOf t.frame = command

/-- A frame that follows anything at all the scan has not ended on, a broken frame among it, is decoded exactly:
resynchronization recovers, and no bit of the broken frame is left (42_decoder.md R104, R116). It rests on the
spec's own choices: a resolved bit is assigned (92_eei_decisions.md D11), a resynchronization does not clear the
frame (D10), the AGC test comes first (D26), and the deltas and totals of D6 and D8. -/
def Obligations.FrameAfterABrokenFrameIsRecovered : Prop :=
  ∀ (s : State) (before tail : List Nat) (address command : BitVec 16) (t0 : Nat), s.cfg.wf →
    s.Holds (before ++ (frameTimes (frameOf address command) t0).map (fun x => x % 2 ^ s.cfg.width) ++ tail) →
    (decodeTimes s.cfg (before ++ [t0 % 2 ^ s.cfg.width])).st ≠ .frameComplete →
    (decodeTimes s.cfg (before ++ [t0 % 2 ^ s.cfg.width])).st ≠ .repeatCode →
    ∃ t, exec .decode s = .next t ∧ t.st = .frameComplete ∧ t.pos = 32 ∧ t.frame = frameOf address command

/-- The whole path of a frame: with capture enabled and nothing recorded, the 67 edges of NECFRAME, then POLL,
RDSTATE and RDFRAME return true, FRAME_COMPLETE at position 32, and exactly the address and the command; the
buffer's length is 0 again (00_scope.md R19, 43_host_interface.md R131 to R134, 30_encoding.md R69 to R71). It rests
on the spec's own choices (92_eei_decisions.md D6, D8, D11, D13, D23 and D32). -/
def Obligations.CapturedFrameIsPolledAndRead : Prop :=
  ∀ (s : State) (address command : BitVec 16) (t0 : Nat), s.Inv → s.capEn = true → s.w = 0 →
    67 ≤ s.cfg.cap → s.cfg.thr ≤ 67 →
    ∃ t, execAll (necFrame s.cfg address command t0 ++ [.poll, .rdState, .rdFrame]) s = .next t ∧
      t.replies = s.replies ++ [(s.issuer, .ready true), (s.issuer, .state 4 32),
        (s.issuer, .frame address command)] ∧ t.w = 0

/-- threshold-reached is not decode-succeeded: for all parameters within their bounds there is a state in which POLL
returns true while no frame is decoded (43_host_interface.md R136, 70_reset_and_hazards.md R177). -/
def Obligations.ReadyIsNotSuccess : Prop :=
  ∀ c : Config, c.wf → ∃ s t : State, s.Inv ∧ s.cfg = c ∧ exec .poll s = .next t ∧
    t.replies = s.replies ++ [(s.issuer, .ready true)] ∧ t.decodeSucceeded = false

/-! ### The accessors -/

/-- RDFRAME, command byte 0x05, returns `frame[15:0]` as the address and `frame[31:16]` as the command, bit by bit,
and changes nothing (43_host_interface.md R133, 30_encoding.md R65). -/
def Obligations.RdFrameReturnsTheTwoHalves : Prop :=
  ∀ s : State, ∃ address command : BitVec 16,
    exec .rdFrame s = .next { s with replies := s.replies ++ [(s.issuer, .frame address command)] } ∧
    (∀ j < 16, address.getLsbD j = s.frame.getLsbD j ∧ command.getLsbD j = s.frame.getLsbD (16 + j)) ∧
    encode s.cfg .rdFrame = [0x05#8]

/-- RDSTATE, command byte 0x06, returns the state code and the position and changes nothing; the codes of the six
states (43_host_interface.md R134, 30_encoding.md R64). It rests on the spec's own choice (92_eei_decisions.md D23 and
D3). -/
def Obligations.RdStateReturnsCodeAndPosition : Prop :=
  ∀ s : State, ∃ code : BitVec 3,
    exec .rdState s = .next { s with replies := s.replies ++ [(s.issuer, .state code s.pos)] } ∧
    (s.st = .noSignal → code = 0) ∧ (s.st = .seekingLeadSpace → code = 1) ∧ (s.st = .seekingBurst → code = 2) ∧
    (s.st = .readingBits → code = 3) ∧ (s.st = .frameComplete → code = 4) ∧ (s.st = .repeatCode → code = 5) ∧
    encode s.cfg .rdState = [0x06#8]
end

