-- ==== Sys2Proof/Laws/Decode.lean ====
section
/-! SUPPORT. The laws of byte fields, and the length of an operation's encoding. -/

namespace Sys2Proof

@[simp] theorem beBytes_length (k v : Nat) : (beBytes k v).length = k := by
  induction k with
  | zero => rfl
  | succ k ih => simp [beBytes, ih]

@[simp] theorem wordBytes_length (k w : Nat) : (wordBytes k w).length = k := by
  induction k generalizing w with
  | zero => rfl
  | succ k ih => simp [wordBytes, ih]

theorem beValue_append (bs : List Byte) (b : Byte) : beValue (bs ++ [b]) = beValue bs * 256 + b.toNat := by
  simp [beValue]

/-- `W = 32` makes EDGE 5 bytes, MATCH 6 and STEP 15 (30_encoding.md R63). -/
theorem encode_length_of_width_32 (c : Config) (h : c.width = 32) (t m d tot : Nat) (cls st : BitVec 3)
    (pos : BitVec 6) (frame : Frame) :
    (encode c (.edge t)).length = 5 ∧ (encode c (.matchPort m cls)).length = 6 ∧
      (encode c (.stepPort st pos frame d tot)).length = 15 := by
  simp [encode, fieldBytes, h]

end Sys2Proof
end

