-- ==== Sys2Proof/Laws/Memory.lean ====
section
/-! SUPPORT. The laws of the Timestamp Buffer's contents: read after write, the canonical form, and that equal
contents are equal data. -/

namespace Sys2Proof.Machine

@[simp] theorem Memory.read_nil (i : Nat) : Memory.read [] i = none := rfl

theorem Memory.read_cons (j v : Nat) (m : Memory) (i : Nat) :
    Memory.read ((j, v) :: m) i = if i = j then some v else Memory.read m i := rfl

theorem Memory.write_cons (j u : Nat) (m : Memory) (i v : Nat) :
    Memory.write ((j, u) :: m) i v =
      if i < j then (i, v) :: (j, u) :: m
      else if i = j then (i, v) :: m
      else (j, u) :: Memory.write m i v := rfl

/-- A read after a write gives the written value at its index and the old value everywhere else. -/
theorem Memory.read_write (m : Memory) (i v j : Nat) :
    (m.write i v).read j = if j = i then some v else m.read j := by
  induction m with
  | nil => simp [Memory.write, Memory.read_cons]
  | cons e m ih =>
    obtain ⟨k, u⟩ := e
    rw [Memory.write_cons]
    split
    · simp [Memory.read_cons]
    · split
      · subst k; by_cases h : j = i <;> simp [Memory.read_cons, h]
      · rw [Memory.read_cons, ih, Memory.read_cons]
        by_cases h : j = k
        · have : j ≠ i := by omega
          simp [h]; omega
        · simp [h]

@[simp] theorem Memory.read_write_same (m : Memory) (i v : Nat) : (m.write i v).read i = some v := by
  simp [Memory.read_write]

theorem Memory.read_write_of_ne (m : Memory) (i v j : Nat) (h : j ≠ i) : (m.write i v).read j = m.read j := by
  simp [Memory.read_write, h]

/-- A written memory lists nothing but the written entry and what it listed before. -/
theorem Memory.mem_write (m : Memory) (i v : Nat) (e : Nat × Nat) (h : e ∈ m.write i v) :
    e = (i, v) ∨ e ∈ m := by
  induction m with
  | nil => simpa [Memory.write] using h
  | cons a m ih =>
    obtain ⟨k, u⟩ := a
    rw [Memory.write_cons] at h
    split at h
    · simpa using h
    · split at h
      · rcases List.mem_cons.1 h with h | h
        · exact .inl h
        · exact .inr (List.mem_cons_of_mem _ h)
      · rcases List.mem_cons.1 h with h | h
        · exact .inr (h ▸ List.mem_cons_self)
        · exact (ih h).imp id (List.mem_cons_of_mem _)

theorem Memory.risesFrom_cons (lo j v : Nat) (m : Memory) :
    Memory.risesFrom lo ((j, v) :: m) = true ↔ lo ≤ j ∧ Memory.risesFrom (j + 1) m = true := by
  simp [Memory.risesFrom]

theorem Memory.risesFrom_weaken {lo lo' : Nat} {m : Memory} (h : Memory.risesFrom lo m = true) (hlo : lo' ≤ lo) :
    Memory.risesFrom lo' m = true := by
  cases m with
  | nil => rfl
  | cons e m => rw [Memory.risesFrom_cons] at h ⊢; exact ⟨by omega, h.2⟩

theorem Memory.risesFrom_write {lo : Nat} {m : Memory} {i v : Nat} (h : Memory.risesFrom lo m = true)
    (hi : lo ≤ i) : Memory.risesFrom lo (m.write i v) = true := by
  induction m generalizing lo with
  | nil => simpa [Memory.write, Memory.risesFrom] using hi
  | cons e m ih =>
    obtain ⟨k, u⟩ := e
    rw [Memory.risesFrom_cons] at h
    rw [Memory.write_cons]
    split
    · rw [Memory.risesFrom_cons, Memory.risesFrom_cons]; exact ⟨hi, by omega, h.2⟩
    · split
      · subst k; rw [Memory.risesFrom_cons]; exact ⟨hi, h.2⟩
      · rw [Memory.risesFrom_cons]; exact ⟨h.1, ih h.2 (by omega)⟩

/-- A write keeps the canonical form. -/
theorem Memory.wf_write {m : Memory} (h : m.wf = true) (i v : Nat) : (m.write i v).wf = true :=
  Memory.risesFrom_write h (Nat.zero_le _)

theorem Memory.read_below {lo : Nat} {m : Memory} (h : Memory.risesFrom lo m = true) {i : Nat} (hi : i < lo) :
    m.read i = none := by
  induction m generalizing lo with
  | nil => rfl
  | cons e m ih =>
    rw [Memory.risesFrom_cons] at h
    rw [Memory.read_cons, if_neg (by omega)]
    exact ih h.2 (by omega)

theorem Memory.risesFrom_ext {lo : Nat} {m m' : Memory} (h : Memory.risesFrom lo m = true)
    (h' : Memory.risesFrom lo m' = true) (hr : ∀ i, m.read i = m'.read i) : m = m' := by
  induction m generalizing lo m' with
  | nil =>
    cases m' with
    | nil => rfl
    | cons e m' => have := hr e.1; simp [Memory.read_cons e.1 e.2] at this
  | cons e m ih =>
    obtain ⟨j, v⟩ := e
    rw [Memory.risesFrom_cons] at h
    cases m' with
    | nil => have := hr j; simp [Memory.read_cons] at this
    | cons e' m' =>
      obtain ⟨j', v'⟩ := e'
      rw [Memory.risesFrom_cons] at h'
      have hj : j = j' := by
        rcases Nat.lt_trichotomy j j' with hlt | heq | hgt
        · have := hr j
          rw [Memory.read_cons, Memory.read_cons, if_pos rfl, if_neg (by omega),
            Memory.read_below h'.2 (by omega)] at this
          simp at this
        · exact heq
        · have := hr j'
          rw [Memory.read_cons, Memory.read_cons, if_pos rfl, if_neg (by omega),
            Memory.read_below h.2 (by omega)] at this
          simp at this
      subst hj
      have hv : v = v' := by simpa [Memory.read_cons] using hr j
      subst hv
      rw [ih h.2 h'.2 fun i => ?_]
      by_cases hi : i = j
      · subst hi; rw [Memory.read_below h.2 (by omega), Memory.read_below h'.2 (by omega)]
      · simpa [Memory.read_cons, hi] using hr i

/-- Two canonical memories that read alike everywhere are the same list. -/
theorem Memory.ext_of_wf {m m' : Memory} (h : m.wf = true) (h' : m'.wf = true)
    (hr : ∀ i, m.read i = m'.read i) : m = m' := Memory.risesFrom_ext h h' hr

/-- A listed index reads as its listed value in a canonical memory. -/
theorem Memory.read_mem {m : Memory} {i v : Nat} (h : m.read i = some v) : (i, v) ∈ m := by
  induction m with
  | nil => simp at h
  | cons e m ih =>
    obtain ⟨j, u⟩ := e
    rw [Memory.read_cons] at h
    split at h
    · simp_all
    · exact List.mem_cons_of_mem _ (ih h)

end Sys2Proof.Machine
end

