-- ==== Sys2Proof/Laws/State.lean ====
section
/-! SUPPORT. One lemma per field per update of the state, so that no later proof unfolds a record update. -/

namespace Sys2Proof.Machine

/-! ### append -/

@[simp] theorem State.append_cfg (s : State) (t : Nat) : (s.append t).cfg = s.cfg := rfl
@[simp] theorem State.append_buf (s : State) (t : Nat) : (s.append t).buf = s.buf.write s.w t := rfl
@[simp] theorem State.append_w (s : State) (t : Nat) : (s.append t).w = s.w + 1 := rfl
@[simp] theorem State.append_st (s : State) (t : Nat) : (s.append t).st = s.st := rfl
@[simp] theorem State.append_pos (s : State) (t : Nat) : (s.append t).pos = s.pos := rfl
@[simp] theorem State.append_frame (s : State) (t : Nat) : (s.append t).frame = s.frame := rfl
@[simp] theorem State.append_capEn (s : State) (t : Nat) : (s.append t).capEn = s.capEn := rfl
@[simp] theorem State.append_capSusp (s : State) (t : Nat) : (s.append t).capSusp = s.capSusp := rfl
@[simp] theorem State.append_hostIn (s : State) (t : Nat) : (s.append t).hostIn = s.hostIn := rfl
@[simp] theorem State.append_edgeIn (s : State) (t : Nat) : (s.append t).edgeIn = s.edgeIn := rfl
@[simp] theorem State.append_order (s : State) (t : Nat) : (s.append t).order = s.order := rfl
@[simp] theorem State.append_issuer (s : State) (t : Nat) : (s.append t).issuer = s.issuer := rfl
@[simp] theorem State.append_replies (s : State) (t : Nat) : (s.append t).replies = s.replies := rfl

/-! ### enableCapture -/

@[simp] theorem State.enableCapture_cfg (s : State) : (s.enableCapture).cfg = s.cfg := rfl
@[simp] theorem State.enableCapture_buf (s : State) : (s.enableCapture).buf = s.buf := rfl
@[simp] theorem State.enableCapture_w (s : State) : (s.enableCapture).w = s.w := rfl
@[simp] theorem State.enableCapture_st (s : State) : (s.enableCapture).st = s.st := rfl
@[simp] theorem State.enableCapture_pos (s : State) : (s.enableCapture).pos = s.pos := rfl
@[simp] theorem State.enableCapture_frame (s : State) : (s.enableCapture).frame = s.frame := rfl
@[simp] theorem State.enableCapture_capEn (s : State) : (s.enableCapture).capEn = true := rfl
@[simp] theorem State.enableCapture_capSusp (s : State) : (s.enableCapture).capSusp = s.capSusp := rfl
@[simp] theorem State.enableCapture_hostIn (s : State) : (s.enableCapture).hostIn = s.hostIn := rfl
@[simp] theorem State.enableCapture_edgeIn (s : State) : (s.enableCapture).edgeIn = s.edgeIn := rfl
@[simp] theorem State.enableCapture_order (s : State) : (s.enableCapture).order = s.order := rfl
@[simp] theorem State.enableCapture_issuer (s : State) : (s.enableCapture).issuer = s.issuer := rfl
@[simp] theorem State.enableCapture_replies (s : State) : (s.enableCapture).replies = s.replies := rfl

/-! ### suspend -/

@[simp] theorem State.suspend_cfg (s : State) : (s.suspend).cfg = s.cfg := rfl
@[simp] theorem State.suspend_buf (s : State) : (s.suspend).buf = s.buf := rfl
@[simp] theorem State.suspend_w (s : State) : (s.suspend).w = s.w := rfl
@[simp] theorem State.suspend_st (s : State) : (s.suspend).st = s.st := rfl
@[simp] theorem State.suspend_pos (s : State) : (s.suspend).pos = s.pos := rfl
@[simp] theorem State.suspend_frame (s : State) : (s.suspend).frame = s.frame := rfl
@[simp] theorem State.suspend_capEn (s : State) : (s.suspend).capEn = s.capEn := rfl
@[simp] theorem State.suspend_capSusp (s : State) : (s.suspend).capSusp = true := rfl
@[simp] theorem State.suspend_hostIn (s : State) : (s.suspend).hostIn = s.hostIn := rfl
@[simp] theorem State.suspend_edgeIn (s : State) : (s.suspend).edgeIn = s.edgeIn := rfl
@[simp] theorem State.suspend_order (s : State) : (s.suspend).order = s.order := rfl
@[simp] theorem State.suspend_issuer (s : State) : (s.suspend).issuer = s.issuer := rfl
@[simp] theorem State.suspend_replies (s : State) : (s.suspend).replies = s.replies := rfl

/-! ### resume -/

@[simp] theorem State.resume_cfg (s : State) : (s.resume).cfg = s.cfg := rfl
@[simp] theorem State.resume_buf (s : State) : (s.resume).buf = s.buf := rfl
@[simp] theorem State.resume_w (s : State) : (s.resume).w = s.w := rfl
@[simp] theorem State.resume_st (s : State) : (s.resume).st = s.st := rfl
@[simp] theorem State.resume_pos (s : State) : (s.resume).pos = s.pos := rfl
@[simp] theorem State.resume_frame (s : State) : (s.resume).frame = s.frame := rfl
@[simp] theorem State.resume_capEn (s : State) : (s.resume).capEn = s.capEn := rfl
@[simp] theorem State.resume_capSusp (s : State) : (s.resume).capSusp = false := rfl
@[simp] theorem State.resume_hostIn (s : State) : (s.resume).hostIn = s.hostIn := rfl
@[simp] theorem State.resume_edgeIn (s : State) : (s.resume).edgeIn = s.edgeIn := rfl
@[simp] theorem State.resume_order (s : State) : (s.resume).order = s.order := rfl
@[simp] theorem State.resume_issuer (s : State) : (s.resume).issuer = s.issuer := rfl
@[simp] theorem State.resume_replies (s : State) : (s.resume).replies = s.replies := rfl

/-! ### resetCapture -/

@[simp] theorem State.resetCapture_cfg (s : State) : (s.resetCapture).cfg = s.cfg := rfl
@[simp] theorem State.resetCapture_buf (s : State) : (s.resetCapture).buf = s.buf := rfl
@[simp] theorem State.resetCapture_w (s : State) : (s.resetCapture).w = 0 := rfl
@[simp] theorem State.resetCapture_st (s : State) : (s.resetCapture).st = s.st := rfl
@[simp] theorem State.resetCapture_pos (s : State) : (s.resetCapture).pos = s.pos := rfl
@[simp] theorem State.resetCapture_frame (s : State) : (s.resetCapture).frame = s.frame := rfl
@[simp] theorem State.resetCapture_capEn (s : State) : (s.resetCapture).capEn = s.capEn := rfl
@[simp] theorem State.resetCapture_capSusp (s : State) : (s.resetCapture).capSusp = s.capSusp := rfl
@[simp] theorem State.resetCapture_hostIn (s : State) : (s.resetCapture).hostIn = s.hostIn := rfl
@[simp] theorem State.resetCapture_edgeIn (s : State) : (s.resetCapture).edgeIn = s.edgeIn := rfl
@[simp] theorem State.resetCapture_order (s : State) : (s.resetCapture).order = s.order := rfl
@[simp] theorem State.resetCapture_issuer (s : State) : (s.resetCapture).issuer = s.issuer := rfl
@[simp] theorem State.resetCapture_replies (s : State) : (s.resetCapture).replies = s.replies := rfl

/-! ### setDecoder -/

@[simp] theorem State.setDecoder_cfg (s : State) (r : DecoderRegs) : (s.setDecoder r).cfg = s.cfg := rfl
@[simp] theorem State.setDecoder_buf (s : State) (r : DecoderRegs) : (s.setDecoder r).buf = s.buf := rfl
@[simp] theorem State.setDecoder_w (s : State) (r : DecoderRegs) : (s.setDecoder r).w = s.w := rfl
@[simp] theorem State.setDecoder_st (s : State) (r : DecoderRegs) : (s.setDecoder r).st = r.st := rfl
@[simp] theorem State.setDecoder_pos (s : State) (r : DecoderRegs) : (s.setDecoder r).pos = r.pos := rfl
@[simp] theorem State.setDecoder_frame (s : State) (r : DecoderRegs) : (s.setDecoder r).frame = r.frame := rfl
@[simp] theorem State.setDecoder_capEn (s : State) (r : DecoderRegs) : (s.setDecoder r).capEn = s.capEn := rfl
@[simp] theorem State.setDecoder_capSusp (s : State) (r : DecoderRegs) : (s.setDecoder r).capSusp = s.capSusp := rfl
@[simp] theorem State.setDecoder_hostIn (s : State) (r : DecoderRegs) : (s.setDecoder r).hostIn = s.hostIn := rfl
@[simp] theorem State.setDecoder_edgeIn (s : State) (r : DecoderRegs) : (s.setDecoder r).edgeIn = s.edgeIn := rfl
@[simp] theorem State.setDecoder_order (s : State) (r : DecoderRegs) : (s.setDecoder r).order = s.order := rfl
@[simp] theorem State.setDecoder_issuer (s : State) (r : DecoderRegs) : (s.setDecoder r).issuer = s.issuer := rfl
@[simp] theorem State.setDecoder_replies (s : State) (r : DecoderRegs) : (s.setDecoder r).replies = s.replies := rfl

/-! ### reply -/

@[simp] theorem State.reply_cfg (s : State) (r : Reply) : (s.reply r).cfg = s.cfg := rfl
@[simp] theorem State.reply_buf (s : State) (r : Reply) : (s.reply r).buf = s.buf := rfl
@[simp] theorem State.reply_w (s : State) (r : Reply) : (s.reply r).w = s.w := rfl
@[simp] theorem State.reply_st (s : State) (r : Reply) : (s.reply r).st = s.st := rfl
@[simp] theorem State.reply_pos (s : State) (r : Reply) : (s.reply r).pos = s.pos := rfl
@[simp] theorem State.reply_frame (s : State) (r : Reply) : (s.reply r).frame = s.frame := rfl
@[simp] theorem State.reply_capEn (s : State) (r : Reply) : (s.reply r).capEn = s.capEn := rfl
@[simp] theorem State.reply_capSusp (s : State) (r : Reply) : (s.reply r).capSusp = s.capSusp := rfl
@[simp] theorem State.reply_hostIn (s : State) (r : Reply) : (s.reply r).hostIn = s.hostIn := rfl
@[simp] theorem State.reply_edgeIn (s : State) (r : Reply) : (s.reply r).edgeIn = s.edgeIn := rfl
@[simp] theorem State.reply_order (s : State) (r : Reply) : (s.reply r).order = s.order := rfl
@[simp] theorem State.reply_issuer (s : State) (r : Reply) : (s.reply r).issuer = s.issuer := rfl
@[simp] theorem State.reply_replies (s : State) (r : Reply) : (s.reply r).replies = s.replies ++ [(s.issuer, r)] := rfl

/-! ### withInput -/

@[simp] theorem State.withInput_cfg (s : State) (h e : List Byte) (o : List Agent) : (s.withInput h e o).cfg = s.cfg := rfl
@[simp] theorem State.withInput_buf (s : State) (h e : List Byte) (o : List Agent) : (s.withInput h e o).buf = s.buf := rfl
@[simp] theorem State.withInput_w (s : State) (h e : List Byte) (o : List Agent) : (s.withInput h e o).w = s.w := rfl
@[simp] theorem State.withInput_st (s : State) (h e : List Byte) (o : List Agent) : (s.withInput h e o).st = s.st := rfl
@[simp] theorem State.withInput_pos (s : State) (h e : List Byte) (o : List Agent) : (s.withInput h e o).pos = s.pos := rfl
@[simp] theorem State.withInput_frame (s : State) (h e : List Byte) (o : List Agent) : (s.withInput h e o).frame = s.frame := rfl
@[simp] theorem State.withInput_capEn (s : State) (h e : List Byte) (o : List Agent) : (s.withInput h e o).capEn = s.capEn := rfl
@[simp] theorem State.withInput_capSusp (s : State) (h e : List Byte) (o : List Agent) : (s.withInput h e o).capSusp = s.capSusp := rfl
@[simp] theorem State.withInput_hostIn (s : State) (h e : List Byte) (o : List Agent) : (s.withInput h e o).hostIn = h := rfl
@[simp] theorem State.withInput_edgeIn (s : State) (h e : List Byte) (o : List Agent) : (s.withInput h e o).edgeIn = e := rfl
@[simp] theorem State.withInput_order (s : State) (h e : List Byte) (o : List Agent) : (s.withInput h e o).order = o := rfl
@[simp] theorem State.withInput_issuer (s : State) (h e : List Byte) (o : List Agent) : (s.withInput h e o).issuer = s.issuer := rfl
@[simp] theorem State.withInput_replies (s : State) (h e : List Byte) (o : List Agent) : (s.withInput h e o).replies = s.replies := rfl

/-! ### setStream, accept, issue: they touch the agents' input only -/

@[simp] theorem State.setStream_cfg (s : State) (a : Agent) (bs : List Byte) :
    (s.setStream a bs).cfg = s.cfg := by cases a <;> rfl
@[simp] theorem State.setStream_buf (s : State) (a : Agent) (bs : List Byte) :
    (s.setStream a bs).buf = s.buf := by cases a <;> rfl
@[simp] theorem State.setStream_w (s : State) (a : Agent) (bs : List Byte) :
    (s.setStream a bs).w = s.w := by cases a <;> rfl
@[simp] theorem State.setStream_st (s : State) (a : Agent) (bs : List Byte) :
    (s.setStream a bs).st = s.st := by cases a <;> rfl
@[simp] theorem State.setStream_pos (s : State) (a : Agent) (bs : List Byte) :
    (s.setStream a bs).pos = s.pos := by cases a <;> rfl
@[simp] theorem State.setStream_frame (s : State) (a : Agent) (bs : List Byte) :
    (s.setStream a bs).frame = s.frame := by cases a <;> rfl
@[simp] theorem State.setStream_capEn (s : State) (a : Agent) (bs : List Byte) :
    (s.setStream a bs).capEn = s.capEn := by cases a <;> rfl
@[simp] theorem State.setStream_capSusp (s : State) (a : Agent) (bs : List Byte) :
    (s.setStream a bs).capSusp = s.capSusp := by cases a <;> rfl
@[simp] theorem State.setStream_order (s : State) (a : Agent) (bs : List Byte) :
    (s.setStream a bs).order = s.order := by cases a <;> rfl
@[simp] theorem State.setStream_issuer (s : State) (a : Agent) (bs : List Byte) :
    (s.setStream a bs).issuer = s.issuer := by cases a <;> rfl
@[simp] theorem State.setStream_replies (s : State) (a : Agent) (bs : List Byte) :
    (s.setStream a bs).replies = s.replies := by cases a <;> rfl
@[simp] theorem State.setStream_stream (s : State) (a : Agent) (bs : List Byte) :
    (s.setStream a bs).stream a = bs := by cases a <;> rfl
@[simp] theorem State.accept_cfg (s : State) (a : Agent) (bs : List Byte) (rest : List Agent) :
    (s.accept a bs rest).cfg = s.cfg := by cases a <;> rfl
@[simp] theorem State.accept_buf (s : State) (a : Agent) (bs : List Byte) (rest : List Agent) :
    (s.accept a bs rest).buf = s.buf := by cases a <;> rfl
@[simp] theorem State.accept_w (s : State) (a : Agent) (bs : List Byte) (rest : List Agent) :
    (s.accept a bs rest).w = s.w := by cases a <;> rfl
@[simp] theorem State.accept_st (s : State) (a : Agent) (bs : List Byte) (rest : List Agent) :
    (s.accept a bs rest).st = s.st := by cases a <;> rfl
@[simp] theorem State.accept_pos (s : State) (a : Agent) (bs : List Byte) (rest : List Agent) :
    (s.accept a bs rest).pos = s.pos := by cases a <;> rfl
@[simp] theorem State.accept_frame (s : State) (a : Agent) (bs : List Byte) (rest : List Agent) :
    (s.accept a bs rest).frame = s.frame := by cases a <;> rfl
@[simp] theorem State.accept_capEn (s : State) (a : Agent) (bs : List Byte) (rest : List Agent) :
    (s.accept a bs rest).capEn = s.capEn := by cases a <;> rfl
@[simp] theorem State.accept_capSusp (s : State) (a : Agent) (bs : List Byte) (rest : List Agent) :
    (s.accept a bs rest).capSusp = s.capSusp := by cases a <;> rfl
@[simp] theorem State.accept_order (s : State) (a : Agent) (bs : List Byte) (rest : List Agent) :
    (s.accept a bs rest).order = rest := by cases a <;> rfl
@[simp] theorem State.accept_issuer (s : State) (a : Agent) (bs : List Byte) (rest : List Agent) :
    (s.accept a bs rest).issuer = a := by cases a <;> rfl
@[simp] theorem State.accept_replies (s : State) (a : Agent) (bs : List Byte) (rest : List Agent) :
    (s.accept a bs rest).replies = s.replies := by cases a <;> rfl
@[simp] theorem State.accept_stream (s : State) (a : Agent) (bs : List Byte) (rest : List Agent) :
    (s.accept a bs rest).stream a = bs := by cases a <;> rfl
@[simp] theorem State.issue_cfg (s : State) (a : Agent) (i : Instr) :
    (s.issue a i).cfg = s.cfg := by cases a <;> rfl
@[simp] theorem State.issue_buf (s : State) (a : Agent) (i : Instr) :
    (s.issue a i).buf = s.buf := by cases a <;> rfl
@[simp] theorem State.issue_w (s : State) (a : Agent) (i : Instr) :
    (s.issue a i).w = s.w := by cases a <;> rfl
@[simp] theorem State.issue_st (s : State) (a : Agent) (i : Instr) :
    (s.issue a i).st = s.st := by cases a <;> rfl
@[simp] theorem State.issue_pos (s : State) (a : Agent) (i : Instr) :
    (s.issue a i).pos = s.pos := by cases a <;> rfl
@[simp] theorem State.issue_frame (s : State) (a : Agent) (i : Instr) :
    (s.issue a i).frame = s.frame := by cases a <;> rfl
@[simp] theorem State.issue_capEn (s : State) (a : Agent) (i : Instr) :
    (s.issue a i).capEn = s.capEn := by cases a <;> rfl
@[simp] theorem State.issue_capSusp (s : State) (a : Agent) (i : Instr) :
    (s.issue a i).capSusp = s.capSusp := by cases a <;> rfl
@[simp] theorem State.issue_order (s : State) (a : Agent) (i : Instr) :
    (s.issue a i).order = s.order ++ [a] := by cases a <;> rfl
@[simp] theorem State.issue_issuer (s : State) (a : Agent) (i : Instr) :
    (s.issue a i).issuer = s.issuer := by cases a <;> rfl
@[simp] theorem State.issue_replies (s : State) (a : Agent) (i : Instr) :
    (s.issue a i).replies = s.replies := by cases a <;> rfl
@[simp] theorem State.issue_stream (s : State) (a : Agent) (i : Instr) :
    (s.issue a i).stream a = s.stream a ++ encode s.cfg i := by cases a <;> rfl

/-! ### The decoder's elements -/

@[simp] theorem State.decoder_st (s : State) : s.decoder.st = s.st := rfl
@[simp] theorem State.decoder_pos (s : State) : s.decoder.pos = s.pos := rfl
@[simp] theorem State.decoder_frame (s : State) : s.decoder.frame = s.frame := rfl
@[simp] theorem State.setDecoder_decoder (s : State) (r : DecoderRegs) : (s.setDecoder r).decoder = r := rfl

end Sys2Proof.Machine
end

