-- ==== Sys2Proof/Laws/Decoder.lean ====
section
/-! SUPPORT. What the decoder's shared operations can do, each said once: an entry's read, one transition, and the
critical section. -/

namespace Sys2Proof.Machine

/-! ### Reading an entry -/

/-- A scan's read answers a value exactly for an existing, recorded entry below `w`. -/
theorem State.readEntry_ok_iff (s : State) (i v : Nat) :
    s.readEntry i = .ok v ↔ i < s.cfg.cap ∧ i < s.w ∧ s.buf.read i = some v := by
  unfold State.readEntry
  split
  · simp; omega
  · split
    · simp; omega
    · rcases h : s.buf.read i with _ | u
      · simp
      · simp only [Except.ok.injEq, Option.some.injEq]
        constructor
        · intro hv; exact ⟨by omega, by omega, hv⟩
        · exact fun hv => hv.2.2

/-- A read depends on the parameters, the buffer and `w` alone. -/
theorem State.readEntry_congr {s t : State} (hc : t.cfg = s.cfg) (hb : t.buf = s.buf) (hw : t.w = s.w) :
    t.readEntry = s.readEntry := by
  funext i; unfold State.readEntry; rw [hc, hb, hw]

theorem State.delta_congr {s t : State} (hc : t.cfg = s.cfg) (hb : t.buf = s.buf) (hw : t.w = s.w) :
    t.delta = s.delta := by
  funext k; unfold State.delta; rw [State.readEntry_congr hc hb hw, hc]

theorem State.total_congr {s t : State} (hc : t.cfg = s.cfg) (hb : t.buf = s.buf) (hw : t.w = s.w) :
    t.total = s.total := by
  funext k; unfold State.total; rw [State.readEntry_congr hc hb hw, State.delta_congr hc hb hw, hc]

theorem State.scanFrom_congr {s t : State} (hc : t.cfg = s.cfg) (hb : t.buf = s.buf) (hw : t.w = s.w)
    (n k : Nat) (r : DecoderRegs) : t.scanFrom n k r = s.scanFrom n k r := by
  induction n generalizing k r with
  | zero => rfl
  | succ n ih =>
    unfold State.scanFrom
    rw [State.delta_congr hc hb hw, State.total_congr hc hb hw, hc]
    simp only [ih]

/-- The scan depends on the parameters, the buffer and `w` alone. -/
theorem State.scan_congr {s t : State} (hc : t.cfg = s.cfg) (hb : t.buf = s.buf) (hw : t.w = s.w) :
    t.scan = s.scan := by
  unfold State.scan; rw [hw]; exact State.scanFrom_congr hc hb hw _ _ _

@[simp] theorem State.scan_suspend (s : State) : s.suspend.scan = s.scan := State.scan_congr rfl rfl rfl

/-! ### One transition -/

/-- Everything one transition from a non-terminal state can do (42_decoder.md R104 to R112). -/
theorem transition_cases (p : MissPolicy) (r : DecoderRegs) (d tot : Nat) (hr : r.st.terminal = false) :
    let x := transition p r d tot
    (DurationClass.agcBurst.accepts d = true ∧ x = ⟨{ r with st := .seekingLeadSpace, pos := 0 }, false⟩) ∨
    (DurationClass.agcBurst.accepts d = false ∧
      ((r.st = .noSignal ∧ x = ⟨r, false⟩) ∨
       (r.st = .seekingLeadSpace ∧ DurationClass.startSpacer.accepts d = true ∧
          x = ⟨{ r with st := .seekingBurst }, false⟩) ∨
       (r.st = .seekingLeadSpace ∧ DurationClass.startSpacer.accepts d = false ∧
          DurationClass.repeatSpacer.accepts d = true ∧ x = ⟨{ r with st := .repeatCode }, true⟩) ∨
       (r.st = .seekingLeadSpace ∧ DurationClass.startSpacer.accepts d = false ∧
          DurationClass.repeatSpacer.accepts d = false ∧ x = missResult p r) ∨
       (r.st = .seekingBurst ∧ DurationClass.bitBurst.accepts d = true ∧
          x = ⟨{ r with st := .readingBits }, false⟩) ∨
       (r.st = .seekingBurst ∧ DurationClass.bitBurst.accepts d = false ∧ x = missResult p r) ∨
       (∃ b, r.st = .readingBits ∧ bitOfTotal tot = some b ∧ x = resolveBit r b) ∨
       (r.st = .readingBits ∧ bitOfTotal tot = none ∧ x = missResult p r))) := by
  obtain ⟨st, pos, frame⟩ := r
  simp only [transition]
  cases hagc : DurationClass.agcBurst.accepts d
  · right
    refine ⟨rfl, ?_⟩
    cases st with
    | noSignal => simp [stateRule]
    | seekingLeadSpace =>
      cases h1 : DurationClass.startSpacer.accepts d <;>
        cases h2 : DurationClass.repeatSpacer.accepts d <;> simp [stateRule, seekLeadSpace, h1, h2]
    | seekingBurst =>
      cases h1 : DurationClass.bitBurst.accepts d <;> simp [stateRule, seekBurst, h1]
    | readingBits =>
      cases h1 : bitOfTotal tot <;> simp [stateRule, readBit, h1]
    | frameComplete => simp [DecoderState.terminal] at hr
    | repeatCode => simp [DecoderState.terminal] at hr
  · left; simp

/-- A resolved bit completes the frame at position 31 and goes on to the next burst below it (R110). -/
theorem resolveBit_cases (r : DecoderRegs) (b : Bool) (h : r.pos.toNat ≤ 31) :
    (r.pos.toNat = 31 ∧ resolveBit r b = ⟨⟨.frameComplete, 32, writeBit r.frame 31 b⟩, true⟩) ∨
    (r.pos.toNat < 31 ∧
      resolveBit r b = ⟨⟨.seekingBurst, r.pos + 1, writeBit r.frame r.pos.toNat b⟩, false⟩) := by
  unfold resolveBit
  by_cases h31 : r.pos.toNat = 31
  · left
    have : r.pos = 31#6 := BitVec.eq_of_toNat_eq (by simpa using h31)
    simp [this]
  · right
    have : r.pos + 1 ≠ 32 := by
      intro hc
      have := congrArg BitVec.toNat hc
      simp [BitVec.toNat_add] at this
      omega
    exact ⟨by omega, if_neg this⟩

/-! ### The critical section -/

/-- The critical section fails as its scan does, and otherwise writes the decoder's elements, resets `w` if asked,
and resumes capture; nothing else changes (20_memory.md R47). -/
theorem State.decodeCycle_eq (s : State) (resetAfter : Bool) :
    s.decodeCycle resetAfter =
      match s.scan with
      | .error f => .error f
      | .ok r => .ok { s with
          w := if resetAfter then 0 else s.w, st := r.st, pos := r.pos, frame := r.frame, capSusp := false } := by
  unfold State.decodeCycle
  simp only [State.scan_suspend]
  cases s.scan with
  | error f => rfl
  | ok r => cases resetAfter <;> rfl

end Sys2Proof.Machine
end

