-- ==== Sys2Proof/Laws/Exec.lean ====
section
/-! SUPPORT. What each meaning answers, each said once: the provers cite these and unfold no meaning. -/

namespace Sys2Proof.Machine

theorem exec_init (s : State) : exec .init s = .next s.enableCapture := rfl

theorem exec_rdFrame (s : State) :
    exec .rdFrame s = .next (s.reply (.frame (addressOf s.frame) (commandOf s.frame))) := rfl

theorem exec_rdState (s : State) : exec .rdState s = .next (s.reply (.state s.st.code s.pos)) := rfl

/-- EDGE stops only while capture is suspended; otherwise it records the timestamp or changes nothing. -/
theorem exec_edge_cases (t : Nat) (s : State) :
    (s.capSusp = true ∧ exec (.edge t) s = .fault .edgeWhileSuspended) ∨
    (s.capSusp = false ∧ s.capEn = true ∧ s.w < s.cfg.cap ∧
      exec (.edge t) s = .next (s.append (operandBits s.cfg t))) ∨
    (s.capSusp = false ∧ (s.capEn = false ∨ s.cfg.cap ≤ s.w) ∧ exec (.edge t) s = .next s) := by
  unfold exec execEdge
  cases s.capSusp <;> cases s.capEn <;> simp
  by_cases h : s.w < s.cfg.cap <;> simp [h]
  omega

/-- POLL below the threshold returns false and changes nothing else; from the threshold on it runs the critical
section with the reset of `w`, and returns true. -/
theorem exec_poll_cases (s : State) :
    (s.w < s.cfg.thr ∧ exec .poll s = .next (s.reply (.ready false))) ∨
    (s.cfg.thr ≤ s.w ∧ ∃ f, s.scan = .error f ∧ exec .poll s = .fault f) ∨
    (s.cfg.thr ≤ s.w ∧ ∃ r, s.scan = .ok r ∧
      exec .poll s = .next { s with
        w := 0, st := r.st, pos := r.pos, frame := r.frame, capSusp := false,
        replies := s.replies ++ [(s.issuer, .ready true)] }) := by
  unfold exec execPoll State.thresholdReached
  by_cases h : s.cfg.thr ≤ s.w
  · right
    simp only [h, decide_true, if_true, State.decodeCycle_eq]
    cases hs : s.scan with
    | error f => exact .inl ⟨trivial, f, rfl, rfl⟩
    | ok r => exact .inr ⟨trivial, r, rfl, rfl⟩
  · left; exact ⟨by omega, by simp [h]⟩

/-- DECODE runs the critical section without the reset. -/
theorem exec_decode_cases (s : State) :
    (∃ f, s.scan = .error f ∧ exec .decode s = .fault f) ∨
    (∃ r, s.scan = .ok r ∧
      exec .decode s = .next { s with st := r.st, pos := r.pos, frame := r.frame, capSusp := false }) := by
  unfold exec execDecode
  simp only [State.decodeCycle_eq]
  cases hs : s.scan with
  | error f => exact .inl ⟨f, rfl, rfl⟩
  | ok r => exact .inr ⟨r, rfl, rfl⟩

/-- MATCH refuses a reserved selector and otherwise only returns its predicate. -/
theorem exec_matchPort_cases (m : Nat) (cls : BitVec 3) (s : State) :
    (classOfSelector cls = none ∧ exec (.matchPort m cls) s = .refused .reservedClassSelector) ∨
    (∃ k, classOfSelector cls = some k ∧
      exec (.matchPort m cls) s = .next (s.reply (.hit (k.accepts (operandBits s.cfg m))))) := by
  simp only [exec, execMatchPort]
  cases classOfSelector cls with
  | none => exact .inl ⟨rfl, rfl⟩
  | some k => exact .inr ⟨k, rfl, rfl⟩

/-- STEP refuses ill-formed operands and otherwise only returns one transition. -/
theorem exec_stepPort_cases (st : BitVec 3) (pos : BitVec 6) (frame : Frame) (d tot : Nat) (s : State) :
    (stepRegs st pos frame = none ∧ exec (.stepPort st pos frame d tot) s = .refused .illFormedStepOperands) ∨
    (∃ r, stepRegs st pos frame = some r ∧
      exec (.stepPort st pos frame d tot) s = .next (s.reply
        (transition s.cfg.missPolicy r (operandBits s.cfg d) (operandBits s.cfg tot)).toReply)) := by
  simp only [exec, execStepPort]
  cases stepRegs st pos frame with
  | none => exact .inl ⟨rfl, rfl⟩
  | some r => exact .inr ⟨r, rfl, rfl⟩

/-- Everything a step can do: idle, run one operation, or refuse its bytes. -/
theorem step_cases (s : State) :
    (∃ t, s.fetch = .idle t ∧ step s = .next t) ∨
    (∃ i t, s.fetch = .operation i t ∧ step s = exec i t) ∨
    (∃ r, s.fetch = .refused r ∧ step s = .refused r) := by
  unfold step
  cases h : s.fetch with
  | idle t => exact .inl ⟨t, rfl, rfl⟩
  | operation i t => exact .inr (.inl ⟨i, t, rfl, rfl⟩)
  | refused r => exact .inr (.inr ⟨r, rfl, rfl⟩)

end Sys2Proof.Machine
end

