-- ==== Sys2Proof/Laws/Holds.lean ====
section
/-! SUPPORT. A state that holds a given sequence of timestamps, for witnesses and tests: it exists for every sequence
that fits, and it meets the invariants. -/

namespace Sys2Proof.Machine

/-- The entries of a sequence of timestamps, from index `k` on. -/
def Memory.ofTimes : Nat → List Nat → Memory
  | _, [] => []
  | k, t :: ts => (k, t) :: Memory.ofTimes (k + 1) ts

/-- The state with capture enabled in which exactly these timestamps have been recorded. -/
def State.holding (c : Config) (times : List Nat) : State :=
  { State.powerOn c with capEn := true, w := times.length, buf := Memory.ofTimes 0 times }

theorem Memory.read_ofTimes (times : List Nat) (lo k : Nat) (h : k < times.length) :
    (Memory.ofTimes lo times).read (lo + k) = some times[k] := by
  induction times generalizing lo k with
  | nil => simp at h
  | cons t ts ih =>
    rw [Memory.ofTimes, Memory.read_cons]
    cases k with
    | zero => simp
    | succ k =>
      rw [if_neg (by omega), show lo + (k + 1) = lo + 1 + k by omega, ih (lo + 1) k (by simpa using h)]
      rfl

theorem Memory.risesFrom_ofTimes (times : List Nat) (lo : Nat) :
    Memory.risesFrom lo (Memory.ofTimes lo times) = true := by
  induction times generalizing lo with
  | nil => rfl
  | cons t ts ih => rw [Memory.ofTimes, Memory.risesFrom_cons]; exact ⟨le_rfl, ih (lo + 1)⟩

theorem Memory.mem_ofTimes (times : List Nat) (lo : Nat) (e : Nat × Nat) (h : e ∈ Memory.ofTimes lo times) :
    e.1 < lo + times.length ∧ e.2 ∈ times := by
  induction times generalizing lo with
  | nil => simp [Memory.ofTimes] at h
  | cons t ts ih =>
    rw [Memory.ofTimes] at h
    rcases List.mem_cons.1 h with rfl | h
    · simp
    · have := ih (lo + 1) h
      exact ⟨by simp; omega, List.mem_cons_of_mem _ this.2⟩

/-- It holds them. -/
theorem State.holding_holds (c : Config) (times : List Nat) (h : times.length ≤ c.cap) :
    (State.holding c times).Holds times :=
  ⟨rfl, h, fun k hk => by
    have := Memory.read_ofTimes times 0 k hk
    rwa [Nat.zero_add] at this⟩

/-- It meets the invariants. -/
theorem State.holding_inv (c : Config) (times : List Nat) (hc : c.wf) (h : times.length ≤ c.cap)
    (ht : ∀ t ∈ times, t < 2 ^ c.width) : (State.holding c times).Inv where
  params := hc
  length := h
  canonical := Memory.risesFrom_ofTimes times 0
  entries e he := by
    have := Memory.mem_ofTimes times 0 e he
    exact ⟨lt_of_lt_of_le (by simpa using this.1) h, ht _ this.2⟩
  recorded k hk := by rw [(State.holding_holds c times h).entry k hk]; rfl
  position := rfl
  resumed := rfl

end Sys2Proof.Machine
end

