-- ==== Sys2Proof/Laws/PerInstr.lean ====
section
/-! SUPPORT. The family EncodingLength: an operation's encoding is its command byte, whose `c[7:4]` is 0 and whose
`c[3:0]` is no reserved op code, and as many operand bytes as `c[3:0]` alone says (30_encoding.md R60, R63). -/

namespace Sys2Proof.Laws.EncodingLength

/-- The encoding's first byte is a command byte with no reserved bits, and fixes the encoding's length. -/
def Statement (i : Instr) : Prop :=
  ∀ c : Config, ∃ b rest, encode c i = b :: rest ∧ commandBits b = 0 ∧ ¬ reservedOpCode (opCode b) ∧
    rest.length = operandBytes c (opCode b)

theorem init : Statement .init := fun _ => ⟨_, _, rfl, by decide, by decide, rfl⟩

theorem edge (t : Nat) : Statement (.edge t) := fun _ => ⟨_, _, rfl, by decide, by decide, by
  rw [beBytes_length]; rfl⟩

theorem poll : Statement .poll := fun _ => ⟨_, _, rfl, by decide, by decide, rfl⟩

theorem decode : Statement .decode := fun _ => ⟨_, _, rfl, by decide, by decide, rfl⟩

theorem rdFrame : Statement .rdFrame := fun _ => ⟨_, _, rfl, by decide, by decide, rfl⟩

theorem rdState : Statement .rdState := fun _ => ⟨_, _, rfl, by decide, by decide, rfl⟩

theorem matchPort (m : Nat) (cls : BitVec 3) : Statement (.matchPort m cls) := fun _ =>
  ⟨_, _, rfl, by decide, by decide, by rw [List.length_append, beBytes_length, beBytes_length]; rfl⟩

theorem stepPort (st : BitVec 3) (pos : BitVec 6) (frame : Frame) (d tot : Nat) :
    Statement (.stepPort st pos frame d tot) := fun _ =>
  ⟨_, _, rfl, by decide, by decide, by simp only [List.length_append, beBytes_length]; rfl⟩

end Sys2Proof.Laws.EncodingLength
end

