-- ==== Sys2Proof/Tests/Slice0.lean ====
section
/-! SUPPORT. The model's own tests, with expected results taken from 95_test_vectors.md, and a witness for the
hypotheses of every statement. -/

namespace Sys2Proof.Tests

open Sys2Proof Sys2Proof.Machine

/-- The next state an outcome answers, if it answers one. -/
def after (x : Host.Outcome State Fault Refusal) : Option State :=
  match x with
  | .next s => some s
  | .fault _ => none
  | .refused _ => none

/-- The refusal an outcome answers, if it answers one. -/
def refusal (x : Host.Outcome State Fault Refusal) : Option Refusal :=
  match x with
  | .next _ => none
  | .fault _ => none
  | .refused r => some r

/-- The parameters of the test vectors. -/
abbrev tv : Config := Config.testVectors

/-- The least parameters the spec allows (00_scope.md R6 to R8). -/
abbrev least : Config := { cap := 2, thr := 1, width := 14, missPolicy := .abandon }

/-- One operation of an agent waiting, after power-on. -/
def waiting (a : Agent) (bytes : List Byte) : State := { State.reset.setStream a bytes with order := [a] }

/-! ### Well-formedness refuses an ill-formed term of each kind (30_encoding.md R60, R62) -/

theorem test_wellFormed_refuses_wide_edge : (Instr.edge (2 ^ 32)).check tv = some .operandTooWide := by decide
theorem test_wellFormed_refuses_wide_match :
    (Instr.matchPort (2 ^ 32) 0).check tv = some .operandTooWide := by decide
theorem test_wellFormed_refuses_wide_step :
    (Instr.stepPort 0 0 0 0 (2 ^ 32)).check tv = some .operandTooWide := by decide
theorem test_wellFormed_refuses_selector_6 :
    (Instr.matchPort 9000 6).check tv = some .reservedClassSelector := by decide
theorem test_wellFormed_refuses_terminal_state :
    (Instr.stepPort 4 0 0 560 1120).check tv = some .illFormedStepOperands := by decide
theorem test_wellFormed_refuses_pos_32 :
    (Instr.stepPort 3 32 0 560 1120).check tv = some .illFormedStepOperands := by decide
theorem test_wellFormed_accepts :
    (Instr.stepPort 3 31 0 (2 ^ 32 - 1) 0).wellFormed tv ∧ (Instr.matchPort 0 5).wellFormed tv := by decide

/-! ### Decoding: every operation's bytes written out from 30_encoding.md R61 and R63 -/

theorem test_decode_init : decode tv [0x01#8, 0xAA#8] = .ok (.init, [0xAA#8]) := by decide
/-- V-E2. -/
theorem test_decode_edge : decode tv [0x02#8, 0x00#8, 0x00#8, 0x38#8, 0xA4#8] = .ok (.edge 14500, []) := by decide
theorem test_decode_poll : decode tv [0x03#8] = .ok (.poll, []) := by decide
theorem test_decode_decode : decode tv [0x04#8] = .ok (.decode, []) := by decide
theorem test_decode_rdFrame : decode tv [0x05#8] = .ok (.rdFrame, []) := by decide
theorem test_decode_rdState : decode tv [0x06#8] = .ok (.rdState, []) := by decide
/-- V-M9. -/
theorem test_decode_match :
    decode tv [0x07#8, 0x00#8, 0x00#8, 0x16#8, 0xDA#8, 0x01#8] = .ok (.matchPort 5850 1, []) := by decide
/-- V-S17. -/
theorem test_decode_step :
    decode tv [0x08#8, 0x03#8, 0x1F#8, 0xD5#8, 0x5A#8, 0x00#8, 0xFF#8, 0x00#8, 0x00#8, 0x02#8, 0x30#8, 0x00#8, 0x00#8,
      0x04#8, 0x60#8] = .ok (.stepPort 3 31 0xD55A00FF 560 1120, []) := by decide
/-- V-X2 and V-X4. -/
theorem test_decode_refuses_reserved :
    decode tv [0x09#8] = .error .reservedOpcode ∧ decode tv [0x12#8] = .error .reservedCommandBits := by decide
/-- The upper 5 bits of MATCH's `cls` byte must be 0 (30_encoding.md R63), and an operation has all its bytes. -/
theorem test_decode_refuses_padding_and_short :
    decode tv [0x07#8, 0x00#8, 0x00#8, 0x23#8, 0x28#8, 0x08#8] = .error .reservedOperandBits ∧
    decode tv [0x02#8, 0x00#8, 0x00#8, 0x23#8] = .error .truncated := by decide

/-! ### One step of each operation -/

/-- V-I1. -/
theorem test_step_init : (after (step (waiting .host [0x01#8]))).map (fun s => (s.capEn, s.w)) = some (true, 0) := by
  decide
/-- V-E2: `buf[2] = 14500` and `w = 3`. -/
theorem test_edge_records :
    (after (exec (.edge 14500) (State.holding tv [1000, 10000]))).map (fun s => (s.buf.read 2, s.w))
      = some (some 14500, 3) := by decide
/-- V-E1: ignored before INIT. -/
theorem test_edge_before_init :
    (after (step (waiting .edgeSource [0x02#8, 0x00#8, 0x00#8, 0x03#8, 0xE8#8]))).map (fun s => s.w) = some 0 := by
  decide
/-- 43_host_interface.md R131 at `w = THR`: true, and `w` is 0 again. -/
theorem test_poll_at_threshold :
    (after (exec .poll (State.holding { tv with thr := 3 } [1000, 10000, 12250]))).map
      (fun s => (s.replies, s.w, s.st)) = some ([(.host, .ready true)], 0, .repeatCode) := by decide
/-- V-P2 with a smaller threshold: below it, false and nothing else. -/
theorem test_poll_below_threshold :
    after (exec .poll (State.holding { tv with thr := 4 } [1000, 10000, 12250]))
      = some ((State.holding { tv with thr := 4 } [1000, 10000, 12250]).reply (.ready false)) := by decide
/-- V-C3: the scan stops at the repeat spacer, and `w` stays 4. -/
theorem test_decode_repeat :
    (after (exec .decode (State.holding tv [1000, 10000, 12250, 12810]))).map (fun s => (s.decoder, s.w))
      = some (⟨.repeatCode, 0, 0⟩, 4) := by decide
/-- V-D19 under both policies. -/
theorem test_decode_miss_policies :
    (after (exec .decode (State.holding tv [0, 9000, 13500, 14500, 15060, 15620, 17310]))).map (fun s => s.decoder)
      = some ⟨.seekingBurst, 1, 0⟩ ∧
    (after (exec .decode (State.holding { tv with missPolicy := .abandon }
      [0, 9000, 13500, 14500, 15060, 15620, 17310]))).map (fun s => s.decoder) = some ⟨.noSignal, 0, 0⟩ := by decide
/-- V-A3. -/
theorem test_rdFrame_halves :
    (after (exec .rdFrame (State.reset.setDecoder ⟨.frameComplete, 32, 0xA55A00FF⟩))).map (fun s => s.replies)
      = some [(.host, .frame 0x00FF 0xA55A)] := by decide
/-- V-A4. -/
theorem test_rdState_complete :
    (after (exec .rdState (State.reset.setDecoder ⟨.frameComplete, 32, 0xA55A00FF⟩))).map (fun s => s.replies)
      = some [(.host, .state 4 32)] := by decide
/-- V-M29 and V-M30. -/
theorem test_match_boundary :
    (after (exec (.matchPort 2925 5) State.reset)).map (fun s => s.replies) = some [(.host, .hit true)] ∧
    (after (exec (.matchPort 2926 5) State.reset)).map (fun s => s.replies) = some [(.host, .hit false)] := by decide
/-- V-M36. -/
theorem test_match_refuses_7 : refusal (exec (.matchPort 9000 7) State.reset) = some .reservedClassSelector := by decide
/-- V-S14 and V-S15. -/
theorem test_step_writes_bit :
    (after (exec (.stepPort 3 5 0x14 1690 2250) State.reset)).map (fun s => s.replies)
      = some [(.host, .stepped 2 6 0x34 false)] ∧
    (after (exec (.stepPort 3 5 0xFFFFFFFF 560 1120) State.reset)).map (fun s => s.replies)
      = some [(.host, .stepped 2 6 0xFFFFFFDF false)] := by decide
/-- V-S21 and V-S24. -/
theorem test_step_agc_first_and_refusal :
    (after (exec (.stepPort 3 5 0x14 9000 1120) State.reset)).map (fun s => s.replies)
      = some [(.host, .stepped 1 0 0x14 false)] ∧
    refusal (exec (.stepPort 3 32 0 560 1120) State.reset) = some .illFormedStepOperands := by decide

/-! ### The assembler and the signal (30_encoding.md R69 to R71) -/

theorem test_assemble_line :
    assemble tv "H: POLL ; 03\nMATCH 11700, 0\nE: EDGE 0x3E8"
      = some [(.host, .poll), (.host, .matchPort 11700 0), (.edgeSource, .edge 1000)] := by decide
/-- L1-2: `t66` of the example frame is 68420; V-D29: `t66` of the all-zero frame is 49340. -/
theorem test_frame_times :
    (frameTimes (frameOf 0x00FF 0xA55A) 1000).take 8 = [1000, 10000, 14500, 15060, 16750, 17310, 19000, 19560] ∧
    (frameTimes (frameOf 0x00FF 0xA55A) 1000).getLast? = some 68420 ∧
    (frameTimes (frameOf 0 0) 0).getLast? = some 49340 := by decide
/-- A table word runs as the first operation after reset. -/
theorem test_withFetchWord :
    decodeTableWord 8 0x06 = some .rdState ∧
    (after (step (State.reset.withFetchWord 8 0x06))).map (fun s => (s.replies, s.order))
      = some ([(.host, .state 0 0)], []) := by decide

/-! ### Witnesses: concrete values that meet the hypotheses of each statement -/

theorem witness_DecodeOfEncodeIsTheOperation :
    (Instr.edge (2 ^ 32 - 1)).fits tv ∧ (Instr.stepPort 7 63 0 0 (2 ^ 14 - 1)).fits least := by decide
theorem witness_DecodedBytesAreTheEncoding :
    decode least [0x02#8, 0x3F#8, 0xFF#8, 0x55#8] = .ok (.edge (2 ^ 14 - 1), [0x55#8]) := by decide
theorem witness_ReservedOperationsAreRefusedByName_bytes :
    (waiting .host [0x00#8]).order = [.host] ∧ (waiting .host [0x00#8]).stream .host = [0x00#8] ∧
    (0x09#8).toNat % 16 = 9 ∧ (0x09#8).toNat / 16 = 0 ∧ (0x18#8).toNat % 16 = 8 ∧ (0x18#8).toNat / 16 = 1 ∧
    (0x10#8).toNat % 16 = 0 ∧ (0xF9#8).toNat % 16 = 9 ∧ (0xF9#8).toNat / 16 = 15 := by decide
theorem witness_ReservedOperationsAreRefusedByName_operands :
    6 ≤ (6#3).toNat ∧ 3 < (4#3).toNat ∧ 31 < (32#6).toNat := by decide
theorem witness_ReservedOperationsAreRefusedByName_run :
    Host.Core.run Sys2Proof.core 0 (waiting .host [0x00#8]) = .next (waiting .host [0x00#8]) ∧
    step (waiting .host [0x00#8]) = .refused .reservedOpcode := ⟨rfl, rfl⟩
theorem witness_StepRunsTheDecodedOperation :
    (waiting .edgeSource [0x05#8]).order = [.edgeSource] ∧
    decode tv ((waiting .edgeSource [0x05#8]).stream .edgeSource) = .ok (.rdFrame, []) ∧
    mayIssue .edgeSource .rdFrame = true := by decide
theorem witness_IssuedOperationRunsNext :
    State.reset.order = [] ∧ State.reset.stream .edgeSource = [] ∧ mayIssue .edgeSource (.edge 5) = true ∧
    (Instr.edge 5).fits State.reset.cfg := by decide
theorem witness_EachAgentIssuesOnlyItsOwnOperations :
    decode tv ((waiting .host [0x02#8, 0#8, 0#8, 0#8, 5#8]).stream .host) = .ok (.edge 5, []) ∧
    decode tv ((waiting .edgeSource [0x01#8]).stream .edgeSource) = .ok (.init, []) := by decide
theorem witness_PowerOnMeetsTheInvariants : tv.wf ∧ least.wf := by decide
theorem witness_StepKeepsTheInvariants :
    (State.holding tv [5]).Inv ∧ ∃ t, step (State.holding tv [5]) = .next t :=
  ⟨State.holding_inv tv [5] (by decide) (by decide) (by decide), _, rfl⟩
theorem witness_NoRunMeetsAFault : Reachable ((State.powerOn least).withInput [0x04#8] [] [.host]) :=
  .input _ _ _ _ (.powerOn least (by decide))
theorem witness_EveryLegalOperationCompletes :
    (State.holding tv [5]).Inv ∧ (5#3).toNat ≤ 5 ∧ (3#3).toNat ≤ 3 ∧ (31#6).toNat ≤ 31 :=
  ⟨State.holding_inv tv [5] (by decide) (by decide) (by decide), by decide, by decide, by decide⟩
theorem witness_ElementsAreWrittenOnlyByTheirOperations :
    (∃ t, exec (.edge 7) (State.holding tv [5]) = .next t ∧ t.w ≠ 1) ∧
    (∃ t, exec .poll (State.holding least [5]) = .next t ∧ t.w ≠ 1) ∧
    (∃ t, exec .decode (State.holding tv [0, 9000]) = .next t ∧ t.st ≠ .noSignal) :=
  ⟨⟨_, rfl, by decide⟩, ⟨_, rfl, by decide⟩, ⟨_, rfl, by decide⟩⟩
theorem witness_InitOnlyEnablesCapture :
    (State.holding tv []).capEn = true ∧ tv.wf ∧ 5 < 2 ^ tv.width := by decide
theorem witness_CaptureStaysEnabledAfterInit :
    (State.holding tv []).capEn = true ∧ (∃ t, step (State.holding tv []) = .next t) ∧
    State.reset.capEn = false ∧ State.reset.capSusp = false ∧ (∃ t, exec .poll State.reset = .next t) :=
  ⟨rfl, ⟨_, rfl⟩, rfl, rfl, ⟨_, rfl⟩⟩
theorem witness_EdgeRecordsOrChangesNothing :
    (State.holding least [5]).capSusp = false ∧ 2 ^ 14 - 1 < 2 ^ least.width ∧
    (State.holding least [5]).w + 1 = least.cap ∧ (State.holding least [5, 6]).w = least.cap ∧
    (State.powerOn least).capEn = false := by decide
theorem witness_DroppedEdgeLeavesNoTrace :
    (State.holding least [5, 6]).capSusp = false ∧ (State.holding least [5, 6]).w = least.cap := by decide
theorem witness_EdgesRecordInOrderUpToCapacity :
    (State.holding least [5]).Inv ∧ (State.holding least [5]).capEn = true ∧
    (∀ x ∈ [6, 2 ^ 14 - 1], x < 2 ^ least.width) :=
  ⟨State.holding_inv least [5] (by decide) (by decide) (by decide), rfl, by decide⟩
theorem witness_SuspendedEdgeIsAFault : State.reset.suspend.capSusp = true := rfl
theorem witness_ComparatorIsTheToleranceWindow : toleranceMatch 1 1 = true ∧ toleranceMatch 2 1 = false := by decide
theorem witness_ClassesAreUnambiguous :
    DurationClass.agcBurst.accepts 6300 = true ∧ DurationClass.zeroBitTotal.accepts 1456 = true ∧
    DurationClass.oneBitTotal.accepts 1575 = true := by decide
theorem witness_MatchPortReturnsTheComparison :
    14 ≤ least.width ∧ 2 ^ least.width - 1 < 2 ^ least.width ∧ (5#3).toNat < 6 ∧ 6 ≤ (6#3).toNat := by decide
theorem witness_TestPortsReadAndWriteNoState :
    State.reset.cfg = (State.holding tv [5]).cfg ∧
    (∃ t, exec (.matchPort 0 5) State.reset = .next t) ∧ (∃ t, exec (.matchPort 0 5) (State.holding tv [5]) = .next t) ∧
    (∃ t, exec (.stepPort 3 31 0 0 0) State.reset = .next t) ∧
    (∃ t, exec (.stepPort 3 31 0 0 0) (State.holding tv [5]) = .next t) :=
  ⟨rfl, ⟨_, rfl⟩, ⟨_, rfl⟩, ⟨_, rfl⟩, ⟨_, rfl⟩⟩
theorem witness_ResynchronizationTakesPrecedence :
    DecoderState.readingBits ≠ .frameComplete ∧ DecoderState.readingBits ≠ .repeatCode ∧ 6300 ≤ 11700 := by decide
theorem witness_TransitionTable :
    (31#6).toNat ≤ 31 ∧ DurationClass.agcBurst.accepts 11700 = true ∧ DurationClass.agcBurst.accepts 11701 = false ∧
    DurationClass.zeroBitTotal.accepts 784 = true ∧ DurationClass.oneBitTotal.accepts 2925 = true ∧
    DurationClass.zeroBitTotal.accepts 1457 = false ∧ DurationClass.oneBitTotal.accepts 1457 = false := by decide
theorem witness_BitWriteAssignsOneBit : (writeBit 0 31 true).getLsbD 31 = true ∧ writeBit 1 0 false = 0 := by decide
theorem witness_MissFollowsThePolicy :
    DurationClass.agcBurst.accepts 3149 = false ∧ DurationClass.startSpacer.accepts 3149 = false ∧
    DurationClass.repeatSpacer.accepts 3149 = false ∧ DurationClass.bitBurst.accepts 3149 = false ∧
    DurationClass.zeroBitTotal.accepts 1574 = false ∧ DurationClass.oneBitTotal.accepts 1574 = false := by decide
theorem witness_TransitionsFollowTheStateOrder :
    (transition .hold ⟨.readingBits, 31, 0⟩ 560 1120).stop = true ∧
    (transition .abandon ⟨.readingBits, 31, 0⟩ 560 1457).regs.st = .noSignal := by decide
theorem witness_StepPortReturnsOneTransition :
    2 ^ 14 - 1 < 2 ^ least.width ∧ DecoderState.code .readingBits = 3#3 ∧ (3#3).toNat ≤ 3 ∧ (31#6).toNat ≤ 31 ∧
    3 < (4#3).toNat ∧ 31 < (32#6).toNat ∧ ¬ (6300 ≤ 6299 ∧ 6299 ≤ 11700) := by decide
theorem witness_DeltaIsTheElapsedTimeAcrossAWrap :
    1 < (State.holding tv [4294962296, 4000]).w ∧
    (State.holding tv [4294962296, 4000]).buf.read 0 = some (4294962296 % 2 ^ tv.width) ∧
    (State.holding tv [4294962296, 4000]).buf.read 1 = some ((4294962296 + 9000) % 2 ^ tv.width) := by decide
theorem witness_TotalIsTheSumOfTwoDeltas :
    (State.holding tv [4294962296, 4000, 8500]).delta 1 = .ok 9000 ∧
    (State.holding tv [4294962296, 4000, 8500]).delta 2 = .ok 4500 := by decide
theorem witness_DecodeScansTheRecordedEntries :
    (State.holding tv [5]).Holds [5] ∧ (State.holding tv [5]).w ≤ 1 :=
  ⟨State.holding_holds tv [5] (by decide), by decide⟩
theorem witness_PollDecodesFromTheThresholdOn :
    (State.holding least []).Holds [] ∧ (State.holding least []).w < least.thr ∧
    (State.holding least [5]).Holds [5] ∧ least.thr ≤ (State.holding least [5]).w :=
  ⟨State.holding_holds least [] (by decide), by decide, State.holding_holds least [5] (by decide), by decide⟩
theorem witness_EveryScanStartsFromTheReset : least.thr ≤ (State.holding least [5]).w := by decide
theorem witness_DecodingTwiceGivesTheSameResult :
    (State.holding tv [0, 9000]).Holds [0, 9000] ∧
    (State.holding { tv with cap := 2, thr := 1 } [0, 9000]).Holds [0, 9000] ∧
    (∃ t, exec .decode (State.holding tv [0, 9000]) = .next t) ∧
    (∃ t, exec .decode (State.holding { tv with cap := 2, thr := 1 } [0, 9000]) = .next t) :=
  ⟨State.holding_holds _ _ (by decide), State.holding_holds _ _ (by decide), ⟨_, rfl⟩, ⟨_, rfl⟩⟩
theorem witness_PollResetsCaptureDecodeAndInitDoNot :
    least.thr ≤ (State.holding least [5]).w ∧ (∃ t, exec .poll (State.holding least [5]) = .next t) ∧
    (∃ t, exec .decode (State.holding least [5]) = .next t) := ⟨by decide, ⟨_, rfl⟩, ⟨_, rfl⟩⟩
theorem witness_LaterEdgesDoNotChangeAFinishedScan :
    (State.holding tv [0, 9000, 11250]).Holds [0, 9000, 11250] ∧
    (State.holding tv [0, 9000, 11250, 20250]).Holds ([0, 9000, 11250] ++ [20250]) ∧
    (∃ t, exec .decode (State.holding tv [0, 9000, 11250]) = .next t ∧ t.st = .repeatCode) ∧
    (∃ t, exec .decode (State.holding tv [0, 9000, 11250, 20250]) = .next t) :=
  ⟨State.holding_holds _ _ (by decide), State.holding_holds _ _ (by decide), ⟨_, rfl, by decide⟩, ⟨_, rfl⟩⟩
theorem witness_NoSynchronizationWithoutAnAgcBurst :
    (State.holding tv [0, 6299, 18000]).Holds [0, 6299, 18000] ∧
    (∀ k < 3, 1 ≤ k → DurationClass.agcBurst.accepts (deltaAt tv [0, 6299, 18000] k) = false) :=
  ⟨State.holding_holds _ _ (by decide), by decide⟩
theorem witness_RepeatCodeEndsTheScan :
    (State.holding tv [0, 6300, 9225]).Holds [0, 6300, 9225] ∧ deltaAt tv [0, 6300, 9225] 1 = 6300 ∧
    deltaAt tv [0, 6300, 9225] 2 = 2925 := ⟨State.holding_holds _ _ (by decide), by decide, by decide⟩

/-- Noise, the example frame of L1-2 across a wrap of the time source, and a trailing burst. -/
def noisyFrame : List Nat :=
  [4294900000] ++ (frameTimes (frameOf 0x00FF 0xA55A) 4294947296).map (fun x => x % 2 ^ tv.width) ++ [47980]

theorem witness_FrameRoundTrip :
    tv.wf ∧ (State.holding tv noisyFrame).Holds noisyFrame ∧
    (∀ k < 2, 1 ≤ k → DurationClass.agcBurst.accepts
      (deltaAt tv ([4294900000] ++ [4294947296 % 2 ^ tv.width]) k) = false) :=
  ⟨by decide, State.holding_holds _ _ (by decide), by decide⟩

/-- A frame broken after its first bit's burst, then a gap. -/
def brokenStart : List Nat := [0, 9000, 13500, 14060]

theorem witness_FrameAfterABrokenFrameIsRecovered :
    (State.holding tv (brokenStart ++ (frameTimes (frameOf 0x1234 0xEDCB) 26140).map (fun x => x % 2 ^ tv.width)
      ++ [])).Holds (brokenStart ++ (frameTimes (frameOf 0x1234 0xEDCB) 26140).map (fun x => x % 2 ^ tv.width) ++ []) ∧
    (decodeTimes tv (brokenStart ++ [26140 % 2 ^ tv.width])).st = .readingBits :=
  ⟨State.holding_holds _ _ (by decide), by decide⟩
theorem witness_CapturedFrameIsPolledAndRead :
    (State.holding tv []).Inv ∧ (State.holding tv []).capEn = true ∧ (State.holding tv []).w = 0 ∧
    67 ≤ tv.cap ∧ tv.thr ≤ 67 :=
  ⟨State.holding_inv tv [] (by decide) (by decide) (by decide), rfl, rfl, by decide, by decide⟩
theorem witness_ReadyIsNotSuccess : least.wf := by decide

end Sys2Proof.Tests
end

section
/-! PROOFS. The command stream and the fetch: the round trip of byte fields and of operations, what the fetch answers
where the bytes decode, and the statements about one step. -/

namespace Sys2Proof

/-! ### Byte fields -/

theorem foldl_beBytes (k v acc : Nat) :
    (beBytes k v).foldl (fun acc b => acc * 256 + b.toNat) acc = acc * 256 ^ k + v % 256 ^ k := by
  induction k generalizing acc with
  | zero => simp [beBytes, Nat.mod_one]
  | succ k ih =>
    rw [beBytes, List.foldl_cons, ih, BitVec.toNat_ofNat, Nat.mod_pow_succ (x := v) (b := 256)]
    ring

theorem beValue_beBytes (k v : Nat) : beValue (beBytes k v) = v % 256 ^ k := by
  simp [beValue, foldl_beBytes]

theorem two_pow_le_fieldBytes (bits : Nat) : 2 ^ bits ≤ 256 ^ fieldBytes bits := by
  have hbits : bits ≤ 8 * fieldBytes bits := by unfold fieldBytes; omega
  calc 2 ^ bits ≤ 2 ^ (8 * fieldBytes bits) := Nat.pow_le_pow_right (by decide) hbits
    _ = 256 ^ fieldBytes bits := by rw [pow_mul]; rfl

/-- Reading a field gives back the value its bytes carry, whatever follows them (30_encoding.md R63). -/
theorem takeField_beBytes {bits k v : Nat} (hk : k = fieldBytes bits) (hv : v < 2 ^ bits) (rest : List Byte) :
    takeField bits (beBytes k v ++ rest) = .ok (v, rest) := by
  have hmod : v % 256 ^ fieldBytes bits = v :=
    Nat.mod_eq_of_lt (lt_of_lt_of_le hv (two_pow_le_fieldBytes bits))
  subst hk
  simp [takeField, beValue_beBytes, hmod, hv]

theorem takeField_beBytes_toNat {n k : Nat} (hk : k = fieldBytes n) (x : BitVec n) (rest : List Byte) :
    takeField n (beBytes k x.toNat ++ rest) = .ok (x.toNat, rest) := takeField_beBytes hk x.isLt rest

/-! ### Operations -/

theorem decode_nil (c : Config) : decode c [] = .error .truncated := rfl

/-- Decoding an encoded operation gives it back, whatever follows it (30_encoding.md R60, R61, R63). -/
theorem decode_encode_append (c : Config) (i : Instr) (rest : List Byte) (hfits : i.fits c) :
    decode c (encode c i ++ rest) = .ok (i, rest) := by
  cases i with
  | init | poll | decode | rdFrame | rdState => rfl
  | edge t =>
    change decodeEdge c (beBytes _ t ++ rest) = _
    rw [decodeEdge, takeField_beBytes rfl hfits]
    rfl
  | matchPort m cls =>
    have hcls := takeField_beBytes_toNat (k := 1) rfl cls rest
    change decodeMatch c ((beBytes _ m ++ beBytes 1 cls.toNat) ++ rest) = _
    simp [decodeMatch, takeField_beBytes rfl hfits, hcls, bind, Except.bind, pure, Except.pure]
  | stepPort st pos frame d tot =>
    obtain ⟨hd, htot⟩ := hfits
    have hst := takeField_beBytes_toNat (k := 1) rfl st
    have hpos := takeField_beBytes_toNat (k := 1) rfl pos
    have hframe := takeField_beBytes_toNat (k := 4) rfl frame
    change decodeStep c ((beBytes 1 st.toNat ++ beBytes 1 pos.toNat ++ beBytes 4 frame.toNat
      ++ beBytes _ d ++ beBytes _ tot) ++ rest) = _
    simp [decodeStep, hst, hpos, hframe, takeField_beBytes rfl hd, takeField_beBytes rfl htot, bind, Except.bind,
      pure, Except.pure]

end Sys2Proof

namespace Sys2Proof.Machine

/-! ### The agents' streams -/

theorem State.setStream_stream_of_ne (s : State) (bytes : List Byte) :
    ∀ {a b : Agent}, b ≠ a → (s.setStream a bytes).stream b = s.stream b
  | .host, .edgeSource, _ => rfl
  | .edgeSource, .host, _ => rfl
  | .host, .host, h => absurd rfl h
  | .edgeSource, .edgeSource, h => absurd rfl h

theorem State.accept_stream_of_ne {a b : Agent} (s : State) (bytes : List Byte) (rest : List Agent) (h : b ≠ a) :
    (s.accept a bytes rest).stream b = s.stream b := by
  rw [← s.setStream_stream_of_ne bytes h]
  cases b <;> rfl

/-- Taking the only waiting operation leaves the state as it was before the operation was issued, but for the issuer. -/
theorem State.accept_issue {s : State} {a : Agent} (i : Instr) (horder : s.order = []) (hstream : s.stream a = []) :
    (s.issue a i).accept a [] [] = { s with issuer := a } := by
  cases s
  cases a <;> cases horder <;> cases hstream <;> rfl

/-! ### The fetch -/

/-- Where the bytes of the agent whose turn it is decode, the fetch hands the operation on, or refuses its issuer. -/
theorem State.fetch_of_decode {s : State} {a : Agent} {order : List Agent} {i : Instr} {rest : List Byte}
    (horder : s.order = a :: order) (hdec : decode s.cfg (s.stream a) = .ok (i, rest)) :
    s.fetch = if mayIssue a i then .operation i (s.accept a rest order) else .refused .wrongIssuer := by
  unfold State.fetch
  rw [horder]
  cases hstream : s.stream a with
  | nil => simp [hstream, decode_nil] at hdec
  | cons b bytes =>
    rw [hstream] at hdec
    simp only [hstream, hdec]

theorem step_of_mayIssue {s : State} {a : Agent} {order : List Agent} {i : Instr} {rest : List Byte}
    (horder : s.order = a :: order) (hdec : decode s.cfg (s.stream a) = .ok (i, rest))
    (hmay : mayIssue a i = true) : step s = exec i (s.accept a rest order) := by
  rw [step, State.fetch_of_decode horder hdec, if_pos hmay]

theorem step_of_not_mayIssue {s : State} {a : Agent} {order : List Agent} {i : Instr} {rest : List Byte}
    (horder : s.order = a :: order) (hdec : decode s.cfg (s.stream a) = .ok (i, rest))
    (hmay : mayIssue a i = false) : step s = .refused .wrongIssuer := by
  rw [step, State.fetch_of_decode horder hdec, if_neg (by simp [hmay])]

/-! ### The statements about one step -/

/-- Settles O5: the state handed to the meaning is the one that `State.accept` leaves. -/
theorem stepRunsTheDecodedOperation : Obligations.StepRunsTheDecodedOperation := by
  intro s a order i rest horder hdec hmay
  refine ⟨s.accept a rest order, step_of_mayIssue horder hdec hmay, s.accept_stream a rest order,
    fun b hb => s.accept_stream_of_ne rest order hb, ?_⟩
  simp

/-- Settles O7: `mayIssue` answers false for each pair of an agent and an operation of the other agent. -/
theorem eachAgentIssuesOnlyItsOwnOperations : Obligations.EachAgentIssuesOnlyItsOwnOperations := by
  intro s a order i rest horder hdec hforeign
  have hmay : mayIssue a i = false := by
    rcases hforeign with ⟨rfl, t, rfl⟩ | ⟨rfl, rfl | rfl | rfl⟩ <;> rfl
  exact step_of_not_mayIssue horder hdec hmay

/-- Settles O6: the issued bytes are the whole stream and decode to the operation, so accepting it takes back all
that issuing it put there. -/
theorem issuedOperationRunsNext : Obligations.IssuedOperationRunsNext := by
  intro s a i horder hstream hmay hfits
  have hdec : decode (s.issue a i).cfg ((s.issue a i).stream a) = .ok (i, []) := by
    rw [State.issue_cfg, State.issue_stream, hstream]
    simpa using decode_encode_append s.cfg i [] hfits
  rw [step_of_mayIssue (by rw [State.issue_order, horder]; rfl) hdec hmay, State.accept_issue i horder hstream]

end Sys2Proof.Machine
end

section
/-! PROOFS. The machine's scan is the recursion over the durations of the recorded entries; how that recursion runs
over a recording cut in two; elapsed time across a wrap; and what writing a bit does to a frame. -/

namespace Sys2Proof.Machine

/-! ### The machine's scan (42_decoder.md R100 to R103) -/

section Holds
variable {s : State} {times : List Nat}

theorem State.Holds.readEntry (h : s.Holds times) {k : Nat} (hk : k < times.length) :
    s.readEntry k = .ok (times.getD k 0) := by
  rw [State.readEntry_ok_iff, h.entry k hk, List.getD_eq_getElem _ _ hk]
  exact ⟨lt_of_lt_of_le hk h.fits, h.length ▸ hk, rfl⟩

theorem State.Holds.delta (h : s.Holds times) {k : Nat} (hk : k < times.length) :
    s.delta k = .ok (deltaAt s.cfg times k) := by
  rw [State.delta, h.readEntry hk, h.readEntry (by omega)]
  rfl

theorem State.Holds.total (h : s.Holds times) {k : Nat} (hk : k < times.length) :
    s.total k = .ok (totalAt s.cfg times k) := by
  unfold State.total totalAt
  split
  · rw [h.readEntry hk, h.readEntry (by omega)]
    rfl
  · exact h.delta hk

theorem State.Holds.scanFrom (h : s.Holds times) (n k : Nat) (hn : k + n ≤ times.length) (r : DecoderRegs) :
    s.scanFrom n k r = .ok (scanDurations s.cfg.missPolicy
      ((List.range' k n).map fun j => (deltaAt s.cfg times j, totalAt s.cfg times j)) r) := by
  induction n generalizing k r with
  | zero => rfl
  | succ n ih =>
    simp only [State.scanFrom, h.delta (k := k) (by omega), h.total (k := k) (by omega), List.range'_succ,
      List.map_cons, scanDurations, bind, Except.bind]
    split
    · rfl
    · exact ih (k + 1) (by omega) _

/-- A scan of a buffer that holds these timestamps leaves what the recursion over their durations gives. -/
theorem State.Holds.scan (h : s.Holds times) : s.scan = .ok (decodeTimes s.cfg times) := by
  have hdur : durationsOf s.cfg times = (List.range' 1 (s.w - 1)).map
      fun j => (deltaAt s.cfg times j, totalAt s.cfg times j) := by
    simp [durationsOf, h.length, List.range'_eq_map_range, Nat.add_comm]
  rcases Nat.eq_zero_or_pos times.length with hnil | hpos
  · rw [decodeTimes, hdur, State.scan, h.length, hnil]
    rfl
  · rw [decodeTimes, hdur, State.scan, h.scanFrom _ 1 (by rw [h.length]; omega)]

/-- DECODE on a buffer that holds these timestamps. -/
theorem State.Holds.exec_decode (h : s.Holds times) :
    exec .decode s = .next { s with
      st := (decodeTimes s.cfg times).st, pos := (decodeTimes s.cfg times).pos,
      frame := (decodeTimes s.cfg times).frame, capSusp := false } := by
  rcases exec_decode_cases s with ⟨f, hs, -⟩ | ⟨r, hs, hexec⟩ <;> rw [h.scan] at hs
  · cases hs
  · cases hs; exact hexec

/-- POLL, from the threshold on, on a buffer that holds these timestamps. -/
theorem State.Holds.exec_poll (h : s.Holds times) (hthr : s.cfg.thr ≤ s.w) :
    exec .poll s = .next { s with
      w := 0, st := (decodeTimes s.cfg times).st, pos := (decodeTimes s.cfg times).pos,
      frame := (decodeTimes s.cfg times).frame, capSusp := false,
      replies := s.replies ++ [(s.issuer, .ready true)] } := by
  rcases exec_poll_cases s with ⟨hlt, -⟩ | ⟨-, f, hs, -⟩ | ⟨-, r, hs, hexec⟩
  · omega
  · rw [h.scan] at hs; cases hs
  · rw [h.scan] at hs; cases hs; exact hexec

end Holds

/-! ### The durations, read off one timestamp after another -/

/-- The durations of the timestamps that follow `earlier` and `last`, the first total reaching back to `earlier`. -/
def durationsAfter (c : Config) (earlier last : Nat) : List Nat → List (Nat × Nat)
  | [] => []
  | t :: ts => (elapsed c t last, elapsed c t earlier) :: durationsAfter c last t ts

theorem durationsAfter_eq_map (c : Config) (earlier last : Nat) (ts : List Nat) :
    durationsAfter c earlier last ts = (List.range ts.length).map fun j =>
      (elapsed c (ts.getD j 0) ((last :: ts).getD j 0),
        elapsed c (ts.getD j 0) ((earlier :: last :: ts).getD j 0)) := by
  induction ts generalizing earlier last with
  | nil => rfl
  | cons t ts ih =>
    rw [durationsAfter, ih, List.length_cons, List.range_succ_eq_map, List.map_cons, List.map_map]
    rfl

/-- The first total is the first delta (42_decoder.md R103), so the first timestamp stands for both earlier ones. -/
theorem durationsOf_cons (c : Config) (t : Nat) (ts : List Nat) :
    durationsOf c (t :: ts) = durationsAfter c t t ts := by
  rw [durationsOf, durationsAfter_eq_map]
  refine List.map_congr_left fun j _ => ?_
  cases j with
  | zero => rfl
  | succ j => simp [deltaAt, totalAt]

theorem durationsAfter_append_cons (c : Config) (earlier last : Nat) (before : List Nat) (t : Nat) (ts : List Nat) :
    durationsAfter c earlier last (before ++ t :: ts) =
      durationsAfter c earlier last (before ++ [t]) ++ durationsAfter c (before.getLastD last) t ts := by
  induction before generalizing earlier last with
  | nil => rfl
  | cons b before ih => simp only [List.cons_append, durationsAfter, ih last b, List.getLastD_cons]

/-- The durations of a recording are those up to any of its timestamps and then those after it. -/
theorem durationsOf_append_cons (c : Config) (before : List Nat) (t : Nat) (ts : List Nat) :
    durationsOf c (before ++ t :: ts) =
      durationsOf c (before ++ [t]) ++ durationsAfter c (before.getLastD t) t ts := by
  cases before with
  | nil => simp [durationsOf_cons, durationsAfter]
  | cons b before =>
    simp only [List.cons_append, durationsOf_cons, durationsAfter_append_cons c b b before t ts, List.getLastD_cons]

theorem mem_durationsOf {c : Config} {times : List Nat} {e : Nat × Nat} (h : e ∈ durationsOf c times) :
    ∃ k, 1 ≤ k ∧ k < times.length ∧ e = (deltaAt c times k, totalAt c times k) := by
  obtain ⟨j, hj, rfl⟩ := List.mem_map.1 h
  exact ⟨j + 1, by omega, by have := List.mem_range.1 hj; omega, rfl⟩

/-! ### The recursion over durations -/

theorem scanDurations_cons_of_continue {p : MissPolicy} {r r' : DecoderRegs} {d tot : Nat}
    (h : transition p r d tot = ⟨r', false⟩) (rest : List (Nat × Nat)) :
    scanDurations p ((d, tot) :: rest) r = scanDurations p rest r' := by
  simp [scanDurations, h]

theorem scanDurations_cons_of_stop {p : MissPolicy} {r r' : DecoderRegs} {d tot : Nat}
    (h : transition p r d tot = ⟨r', true⟩) (rest : List (Nat × Nat)) :
    scanDurations p ((d, tot) :: rest) r = r' := by
  simp [scanDurations, h]

/-- Without an AGC burst the scan never leaves NO_SIGNAL (42_decoder.md R105), and goes on to what follows. -/
theorem scanDurations_append_of_noAgc {p : MissPolicy} {r : DecoderRegs} (hr : r.st = .noSignal)
    {ds : List (Nat × Nat)} (hds : ∀ e ∈ ds, DurationClass.agcBurst.accepts e.1 = false)
    (rest : List (Nat × Nat)) : scanDurations p (ds ++ rest) r = scanDurations p rest r := by
  induction ds with
  | nil => rfl
  | cons e ds ih =>
    have hstep : transition p r e.1 e.2 = ⟨r, false⟩ := by
      simp [transition, stateRule, hr, hds e List.mem_cons_self]
    rw [List.cons_append, scanDurations_cons_of_continue hstep, ih fun e he => hds e (List.mem_cons_of_mem _ he)]

/-! ### Elapsed time -/

/-- The elapsed time, across a wrap of the time source too (42_decoder.md R102). -/
theorem elapsed_mod (c : Config) (start : Nat) {time : Nat} (h : time < 2 ^ c.width) :
    elapsed c ((start + time) % 2 ^ c.width) (start % 2 ^ c.width) = time := by
  have htime : (time : Int) % ((2 ^ c.width : Nat) : Int) = time := by
    rw [← Int.natCast_mod, Nat.mod_eq_of_lt h]
  rw [elapsed, Int.natCast_mod, Int.natCast_mod, ← Int.sub_emod, Nat.cast_add, add_sub_cancel_left, htime,
    Int.toNat_natCast]

theorem Config.lt_two_pow_width {c : Config} (hc : c.wf) {x : Nat} (hx : x < 2 ^ 14) : x < 2 ^ c.width := by
  obtain ⟨-, -, -, hwidth⟩ := hc
  exact lt_of_lt_of_le hx (Nat.pow_le_pow_right (by decide) hwidth)

/-! ### Writing a bit (42_decoder.md R109) -/

theorem getLsbD_writeBit (frame : Frame) {pos : Nat} (b : Bool) (hpos : pos < 32) {j : Nat} (hj : j < 32) :
    (writeBit frame pos b).getLsbD j = if j = pos then b else frame.getLsbD j := by
  rcases Nat.lt_trichotomy j pos with hlt | rfl | hgt
  · simp [writeBit, hj, hlt, hlt.ne]
  · cases b <;> simp [writeBit, hj]
  · have hne : j - pos ≠ 0 := by omega
    cases b <;> simp [writeBit, hj, hgt.ne', hgt.not_gt, hne]

end Sys2Proof.Machine
end

section
/-! PROOFS. The frame round trip: a frame's 67 timestamps take the scan, from whatever registers it is in, to
FRAME_COMPLETE with exactly the frame's bits, whatever follows them. -/

namespace Sys2Proof.Machine

/-! ### The durations of a frame (30_encoding.md R69) -/

/-- A timestamp as the block records it: its low `W` bits (00_scope.md R8). -/
def recordedTimes (c : Config) (times : List Nat) : List Nat := times.map fun t => t % 2 ^ c.width

theorem bitSpace_le (b : Bool) : bitSpace b ≤ 1690 := by cases b <;> decide

/-- A bit's two durations: its burst, and its space with the bit's whole length as the total. -/
theorem durationsAfter_bitTimes {c : Config} (hc : c.wf) (f : Frame) (n j earlier t : Nat) (tail : List Nat) :
    durationsAfter c earlier (t % 2 ^ c.width) (recordedTimes c (bitTimes f (n + 1) j t) ++ tail) =
      (560, elapsed c ((t + 560) % 2 ^ c.width) earlier) ::
      (bitSpace (f.getLsbD j), 560 + bitSpace (f.getLsbD j)) ::
      durationsAfter c ((t + 560) % 2 ^ c.width) ((t + 560 + bitSpace (f.getLsbD j)) % 2 ^ c.width)
        (recordedTimes c (bitTimes f n (j + 1) (t + 560 + bitSpace (f.getLsbD j))) ++ tail) := by
  have hspace := bitSpace_le (f.getLsbD j)
  have hburst := elapsed_mod c t (Config.lt_two_pow_width hc (x := 560) (by decide))
  have hgap := elapsed_mod c (t + 560) (Config.lt_two_pow_width hc (x := bitSpace (f.getLsbD j)) (by omega))
  have htotal := elapsed_mod c t (Config.lt_two_pow_width hc (x := 560 + bitSpace (f.getLsbD j)) (by omega))
  rw [← Nat.add_assoc] at htotal
  simp only [bitTimes, recordedTimes, List.map_cons, List.cons_append, durationsAfter, hburst, hgap, htotal]

/-- A frame's first two durations: the AGC burst and the start spacer. -/
theorem durationsAfter_frameTimes {c : Config} (hc : c.wf) (f : Frame) (earlier t0 : Nat) (tail : List Nat) :
    ∃ tot tot' earlier', durationsAfter c earlier (t0 % 2 ^ c.width)
        (recordedTimes c (frameTimes f t0).tail ++ tail) =
      (9000, tot) :: (4500, tot') :: durationsAfter c earlier' ((t0 + 9000 + 4500) % 2 ^ c.width)
        (recordedTimes c (bitTimes f 32 0 (t0 + 9000 + 4500)) ++ tail) := by
  have hagc := elapsed_mod c t0 (Config.lt_two_pow_width hc (x := 9000) (by decide))
  have hspacer := elapsed_mod c (t0 + 9000) (Config.lt_two_pow_width hc (x := 4500) (by decide))
  refine ⟨elapsed c ((t0 + 9000) % 2 ^ c.width) earlier,
    elapsed c ((t0 + 9000 + 4500) % 2 ^ c.width) (t0 % 2 ^ c.width), (t0 + 9000) % 2 ^ c.width, ?_⟩
  simp only [frameTimes, List.tail_cons, recordedTimes, List.map_cons, List.cons_append, durationsAfter, hagc,
    hspacer]

theorem bitTimes_length (f : Frame) (n j t : Nat) : (bitTimes f n j t).length = 2 * n := by
  induction n generalizing j t with
  | zero => rfl
  | succ n ih => simp [bitTimes, ih]; omega

theorem frameTimes_length (f : Frame) (t0 : Nat) : (frameTimes f t0).length = 67 := by
  simp [frameTimes, bitTimes_length]

/-! ### The transitions a frame makes -/

theorem transition_agcBurst (p : MissPolicy) (r : DecoderRegs) (tot : Nat) :
    transition p r 9000 tot = ⟨⟨.seekingLeadSpace, 0, r.frame⟩, false⟩ := rfl

theorem transition_startSpacer (p : MissPolicy) (pos : BitVec 6) (frame : Frame) (tot : Nat) :
    transition p ⟨.seekingLeadSpace, pos, frame⟩ 4500 tot = ⟨⟨.seekingBurst, pos, frame⟩, false⟩ := rfl

theorem transition_bitBurst (p : MissPolicy) (pos : BitVec 6) (frame : Frame) (tot : Nat) :
    transition p ⟨.seekingBurst, pos, frame⟩ 560 tot = ⟨⟨.readingBits, pos, frame⟩, false⟩ := rfl

theorem transition_bitSpace (p : MissPolicy) (pos : BitVec 6) (frame : Frame) (b : Bool) :
    transition p ⟨.readingBits, pos, frame⟩ (bitSpace b) (560 + bitSpace b) =
      resolveBit ⟨.readingBits, pos, frame⟩ b := by
  cases b <;> rfl

theorem transition_bitSpace_of_lt (p : MissPolicy) {pos : BitVec 6} (hpos : pos.toNat < 31) (frame : Frame)
    (b : Bool) :
    transition p ⟨.readingBits, pos, frame⟩ (bitSpace b) (560 + bitSpace b) =
      ⟨⟨.seekingBurst, pos + 1, writeBit frame pos.toNat b⟩, false⟩ := by
  rw [transition_bitSpace]
  rcases resolveBit_cases ⟨.readingBits, pos, frame⟩ b hpos.le with ⟨heq, -⟩ | ⟨-, hres⟩
  · exact absurd heq hpos.ne
  · exact hres

theorem transition_bitSpace_of_eq (p : MissPolicy) {pos : BitVec 6} (hpos : pos.toNat = 31) (frame : Frame)
    (b : Bool) :
    transition p ⟨.readingBits, pos, frame⟩ (bitSpace b) (560 + bitSpace b) =
      ⟨⟨.frameComplete, 32, writeBit frame 31 b⟩, true⟩ := by
  rw [transition_bitSpace]
  rcases resolveBit_cases ⟨.readingBits, pos, frame⟩ b hpos.le with ⟨-, hres⟩ | ⟨hlt, -⟩
  · exact hres
  · exact absurd hpos hlt.ne

/-! ### The scan of a frame -/

/-- Writing the next bit of `f` extends the agreement with `f` by that bit. -/
theorem writeBit_agrees {f frame : Frame} {pos : Nat} (hpos : pos < 32)
    (hagree : ∀ i < pos, frame.getLsbD i = f.getLsbD i) :
    ∀ i < pos + 1, (writeBit frame pos (f.getLsbD pos)).getLsbD i = f.getLsbD i := by
  intro i hi
  rw [getLsbD_writeBit frame _ hpos (by omega)]
  split
  · next heq => rw [heq]
  · exact hagree i (by omega)

/-- The last `n + 1` bits of a frame complete it, where the bits before them are already in place. -/
theorem scanDurations_bitTimes {c : Config} (hc : c.wf) (p : MissPolicy) (f : Frame) (n : Nat) (pos : BitVec 6)
    (hpos : pos.toNat + n = 31) (frame : Frame) (hagree : ∀ i < pos.toNat, frame.getLsbD i = f.getLsbD i)
    (earlier t : Nat) (tail : List Nat) :
    scanDurations p (durationsAfter c earlier (t % 2 ^ c.width)
      (recordedTimes c (bitTimes f (n + 1) pos.toNat t) ++ tail)) ⟨.seekingBurst, pos, frame⟩ =
        ⟨.frameComplete, 32, f⟩ := by
  induction n generalizing pos frame earlier t with
  | zero =>
    have hlast : pos.toNat = 31 := hpos
    have hwhole : writeBit frame 31 (f.getLsbD 31) = f :=
      BitVec.eq_of_getLsbD_eq (writeBit_agrees (by decide) (hlast ▸ hagree))
    rw [durationsAfter_bitTimes hc, scanDurations_cons_of_continue (transition_bitBurst ..),
      scanDurations_cons_of_stop (transition_bitSpace_of_eq p hlast ..), hlast, hwhole]
  | succ n ih =>
    have hnext : (pos + 1).toNat = pos.toNat + 1 := by
      rw [BitVec.toNat_add]
      exact Nat.mod_eq_of_lt (by simp; omega)
    rw [durationsAfter_bitTimes hc, scanDurations_cons_of_continue (transition_bitBurst ..),
      scanDurations_cons_of_continue (transition_bitSpace_of_lt p (by omega) ..), ← hnext]
    exact ih (pos + 1) (by omega) _ (hnext ▸ writeBit_agrees (by omega) hagree) _ _

/-- A frame's durations, from whatever registers the scan is in: the AGC burst restarts it from the top
(42_decoder.md R104), and the 32 bits overwrite the whole frame. -/
theorem scanDurations_frameTimes {c : Config} (hc : c.wf) (p : MissPolicy) (f : Frame) (r : DecoderRegs)
    (earlier t0 : Nat) (tail : List Nat) :
    scanDurations p (durationsAfter c earlier (t0 % 2 ^ c.width)
      (recordedTimes c (frameTimes f t0).tail ++ tail)) r = ⟨.frameComplete, 32, f⟩ := by
  obtain ⟨tot, tot', earlier', hdur⟩ := durationsAfter_frameTimes hc f earlier t0 tail
  rw [hdur, scanDurations_cons_of_continue (transition_agcBurst ..),
    scanDurations_cons_of_continue (transition_startSpacer ..)]
  exact scanDurations_bitTimes hc p f 31 0 rfl r.frame (by simp) earlier' _ tail

/-- A frame behind noise without an AGC burst, with anything after it, is decoded exactly (42_decoder.md R120). -/
theorem decodeTimes_frameTimes {c : Config} (hc : c.wf) (noise tail : List Nat) (f : Frame) (t0 : Nat)
    (hnoise : ∀ k, 1 ≤ k → k ≤ noise.length →
      DurationClass.agcBurst.accepts (deltaAt c (noise ++ [t0 % 2 ^ c.width]) k) = false) :
    decodeTimes c (noise ++ recordedTimes c (frameTimes f t0) ++ tail) = ⟨.frameComplete, 32, f⟩ := by
  have hsplit : noise ++ recordedTimes c (frameTimes f t0) ++ tail =
      noise ++ t0 % 2 ^ c.width :: (recordedTimes c (frameTimes f t0).tail ++ tail) := by
    rw [List.append_assoc]
    rfl
  have hquiet : ∀ e ∈ durationsOf c (noise ++ [t0 % 2 ^ c.width]),
      DurationClass.agcBurst.accepts e.1 = false := by
    intro e he
    obtain ⟨k, hk, hlt, rfl⟩ := mem_durationsOf he
    exact hnoise k hk (by simpa [Nat.lt_succ_iff] using hlt)
  rw [decodeTimes, hsplit, durationsOf_append_cons, scanDurations_append_of_noAgc rfl hquiet]
  exact scanDurations_frameTimes hc _ f _ _ t0 tail

/-! ### The two halves of a frame (30_encoding.md R65) -/

@[simp] theorem addressOf_frameOf (address command : BitVec 16) : addressOf (frameOf address command) = address :=
  BitVec.extractLsb'_append_eq_right

@[simp] theorem commandOf_frameOf (address command : BitVec 16) : commandOf (frameOf address command) = command :=
  BitVec.extractLsb'_append_eq_left

end Sys2Proof.Machine
end

section
/-! PROOFS. Sequences of operations, and what a burst of edges records (40_recorder.md R80). -/

namespace Sys2Proof.Machine

theorem State.Holds.append {s : State} {times : List Nat} (h : s.Holds times) (hroom : times.length < s.cfg.cap)
    (t : Nat) : (s.append t).Holds (times ++ [t]) where
  length := by simp [h.length]
  fits := by simpa using hroom
  entry k hk := by
    rw [State.append_buf, h.length]
    rcases Nat.lt_or_ge k times.length with hlt | hge
    · rw [Memory.read_write_of_ne _ _ _ _ hlt.ne, h.entry k hlt, List.getElem_append_left hlt]
    · obtain rfl : k = times.length := by simp at hk; omega
      simp

theorem exec_edge_of_room {s : State} {t : Nat} (hsusp : s.capSusp = false) (hen : s.capEn = true)
    (hroom : s.w < s.cfg.cap) (ht : t < 2 ^ s.cfg.width) : exec (.edge t) s = .next (s.append t) := by
  rcases exec_edge_cases t s with ⟨hs, -⟩ | ⟨-, -, -, hexec⟩ | ⟨-, hs, -⟩
  · simp [hsusp] at hs
  · rwa [operandBits, Nat.mod_eq_of_lt ht] at hexec
  · simp [hen] at hs; omega

theorem execAll_append {is : List Instr} (js : List Instr) {s t : State} (h : execAll is s = .next t) :
    execAll (is ++ js) s = execAll js t := by
  induction is generalizing s with
  | nil => cases h; rfl
  | cons i is ih =>
    simp only [List.cons_append, execAll] at h ⊢
    cases hi : exec i s with
    | next u => rw [hi] at h; exact ih h
    | fault f => rw [hi] at h; cases h
    | refused r => rw [hi] at h; cases h

/-- Edges that fit are recorded in order behind what is there, and touch `buf` and `w` alone. -/
theorem execAll_edgesAt {s : State} {before : List Nat} (times : List Nat) (hholds : s.Holds before)
    (hen : s.capEn = true) (hsusp : s.capSusp = false) (hroom : before.length + times.length ≤ s.cfg.cap) :
    ∃ t, execAll (edgesAt s.cfg times) s = .next t ∧ t.Holds (before ++ recordedTimes s.cfg times) ∧
      t = { s with buf := t.buf, w := t.w } := by
  induction times generalizing s before with
  | nil => exact ⟨s, rfl, by simpa [recordedTimes] using hholds, rfl⟩
  | cons x times ih =>
    rw [List.length_cons] at hroom
    have hlt : before.length < s.cfg.cap := by omega
    have hedge := exec_edge_of_room hsusp hen (hholds.length ▸ hlt) (Nat.mod_lt x (Nat.two_pow_pos s.cfg.width))
    obtain ⟨t, hrun, ht, hframe⟩ := ih (s := s.append (x % 2 ^ s.cfg.width)) (hholds.append hlt _) hen hsusp
      (by simp; omega)
    refine ⟨t, ?_, by simpa [recordedTimes] using ht, hframe⟩
    simpa [edgesAt, execAll, hedge] using hrun

end Sys2Proof.Machine
end

section
/-! PROOFS. The statements about a whole frame: decoded from a buffer that holds it, and from its edges to RDFRAME. -/

namespace Sys2Proof.Machine

/-- Settles O41: the recorded timestamps are those of the frame, so the scan ends as `decodeTimes_frameTimes` says. -/
theorem frameRoundTrip : Obligations.FrameRoundTrip := by
  intro s noise tail address command t0 hwf hholds hnoise
  have hdecode := State.Holds.exec_decode
    (times := noise ++ recordedTimes s.cfg (frameTimes (frameOf address command) t0) ++ tail) hholds
  rw [decodeTimes_frameTimes hwf noise tail _ t0 hnoise] at hdecode
  exact ⟨_, hdecode, rfl, rfl, addressOf_frameOf address command, commandOf_frameOf address command⟩

/-- Settles O43: the edges leave exactly the frame's timestamps, at the threshold or above it; POLL decodes them and
RDSTATE and RDFRAME return what it left. -/
theorem capturedFrameIsPolledAndRead : Obligations.CapturedFrameIsPolledAndRead := by
  intro s address command t0 hinv hen hw hcap hthr
  have hempty : s.Holds [] := ⟨hw, Nat.zero_le _, by simp⟩
  obtain ⟨t, hrun, hholds, hframe⟩ := execAll_edgesAt (frameTimes (frameOf address command) t0) hempty hen
    hinv.resumed (by simpa [frameTimes_length] using hcap)
  have hcfg : t.cfg = s.cfg := by rw [hframe]
  have hissuer : t.issuer = s.issuer := by rw [hframe]
  have hreplies : t.replies = s.replies := by rw [hframe]
  have hfull : t.w = 67 := by rw [hholds.length]; simp [recordedTimes, frameTimes_length]
  have hscan : decodeTimes t.cfg ([] ++ recordedTimes s.cfg (frameTimes (frameOf address command) t0)) =
      ⟨.frameComplete, 32, frameOf address command⟩ := by
    have h := decodeTimes_frameTimes hinv.params [] [] (frameOf address command) t0 (by simp; omega)
    rw [hcfg]
    rwa [List.append_nil] at h
  have hpoll := hholds.exec_poll (by rw [hcfg, hfull]; exact hthr)
  rw [hscan] at hpoll
  rw [necFrame, execAll_append _ hrun]
  simp only [execAll, hpoll, exec_rdState, exec_rdFrame]
  exact ⟨_, rfl, by simp [hissuer, hreplies, DecoderState.code], rfl⟩

end Sys2Proof.Machine
end

section
/-! PROOFS. What one step can do, each said once: the fetch, the effect of an operation that completes, and what the
scan keeps of the decoder's registers. -/

namespace Sys2Proof.Machine

/-! ### The fetch and the step -/

/-- Everything the fetch can answer: it idles and changes at most the order, hands on the front agent's own operation
with its bytes consumed, or refuses. -/
theorem State.fetch_cases (s : State) :
    (∃ order, s.fetch = .idle { s with order := order }) ∨
    (∃ i a bytes rest, s.order = a :: rest ∧ decode s.cfg (s.stream a) = .ok (i, bytes) ∧ mayIssue a i = true ∧
      s.fetch = .operation i (s.accept a bytes rest)) ∨
    (∃ r, s.fetch = .refused r) := by
  cases horder : s.order with
  | nil => exact .inl ⟨s.order, show s.fetch = .idle s by simp only [State.fetch, horder]⟩
  | cons a rest =>
    cases hstream : s.stream a with
    | nil => exact .inl ⟨rest, by simp only [State.fetch, horder, hstream]⟩
    | cons b bytes =>
      right
      cases hdec : decode s.cfg (b :: bytes) with
      | error e => exact .inr ⟨refusalOf e, by simp only [State.fetch, horder, hstream, hdec]⟩
      | ok result =>
        obtain ⟨i, tail⟩ := result
        rw [← hstream] at hdec
        have hfetch := State.fetch_of_decode horder hdec
        cases hmay : mayIssue a i
        · exact .inr ⟨.wrongIssuer, by simp [hfetch, hmay]⟩
        · exact .inl ⟨i, a, tail, rest, rfl, hdec, hmay, by simp [hfetch, hmay]⟩

/-- A step that completes had nothing to run and changed at most the order, or ran an operation on the accepted
state. -/
theorem step_next_cases {s t : State} (h : step s = .next t) :
    (∃ order, t = { s with order := order }) ∨
    (∃ i a bytes rest, s.order = a :: rest ∧ decode s.cfg (s.stream a) = .ok (i, bytes) ∧ mayIssue a i = true ∧
      exec i (s.accept a bytes rest) = .next t) := by
  rcases s.fetch_cases with ⟨order, hfetch⟩ | ⟨i, a, bytes, rest, horder, hdec, hmay, hfetch⟩ | ⟨r, hfetch⟩ <;>
    rw [step, hfetch] at h
  · cases h; exact .inl ⟨order, rfl⟩
  · exact .inr ⟨i, a, bytes, rest, horder, hdec, hmay, h⟩
  · cases h

/-! ### The effect of an operation -/

/-- What an operation that completes does to the state, by the named writes of the state elements (10_state.md R25). -/
inductive Effect (s : State) : Instr → State → Prop where
  /-- INIT. -/
  | enable : Effect s .init s.enableCapture
  /-- EDGE with the recorder installed and room in the buffer. -/
  | record (time : Nat) (hsusp : s.capSusp = false) (hen : s.capEn = true) (hroom : s.w < s.cfg.cap) :
      Effect s (.edge time) (s.append (operandBits s.cfg time))
  /-- EDGE otherwise. -/
  | drop (time : Nat) (hsusp : s.capSusp = false) (hdrop : s.capEn = false ∨ s.cfg.cap ≤ s.w) :
      Effect s (.edge time) s
  /-- POLL from the threshold on. -/
  | poll (r : DecoderRegs) (hthr : s.cfg.thr ≤ s.w) (hscan : s.scan = .ok r) :
      Effect s .poll ((s.setDecoder r).resetCapture.resume.reply (.ready true))
  /-- DECODE. -/
  | decode (r : DecoderRegs) (hscan : s.scan = .ok r) : Effect s .decode (s.setDecoder r).resume
  /-- POLL below the threshold, and the operations that only return a value. -/
  | reply (i : Instr) (hi : i ≠ .init) (v : Reply) : Effect s i (s.reply v)

theorem exec_effect {s t : State} {i : Instr} (h : exec i s = .next t) : Effect s i t := by
  cases i with
  | init => rw [exec_init] at h; cases h; exact .enable
  | edge time =>
    rcases exec_edge_cases time s with ⟨-, he⟩ | ⟨hsusp, hen, hroom, he⟩ | ⟨hsusp, hdrop, he⟩ <;>
      rw [he] at h <;> cases h
    · exact .record time hsusp hen hroom
    · exact .drop time hsusp hdrop
  | poll =>
    rcases exec_poll_cases s with ⟨-, he⟩ | ⟨-, f, -, he⟩ | ⟨hthr, r, hscan, he⟩ <;> rw [he] at h <;> cases h
    · exact .reply .poll nofun _
    · exact .poll r hthr hscan
  | decode =>
    rcases exec_decode_cases s with ⟨f, -, he⟩ | ⟨r, hscan, he⟩ <;> rw [he] at h <;> cases h
    exact .decode r hscan
  | rdFrame => rw [exec_rdFrame] at h; cases h; exact .reply .rdFrame nofun _
  | rdState => rw [exec_rdState] at h; cases h; exact .reply .rdState nofun _
  | matchPort m cls =>
    rcases exec_matchPort_cases m cls s with ⟨-, he⟩ | ⟨k, -, he⟩ <;> rw [he] at h <;> cases h
    exact .reply (.matchPort m cls) nofun _
  | stepPort st pos frame d tot =>
    rcases exec_stepPort_cases st pos frame d tot s with ⟨-, he⟩ | ⟨r, -, he⟩ <;> rw [he] at h <;> cases h
    exact .reply (.stepPort st pos frame d tot) nofun _

/-- INIT sets `cap_en`, and nothing else writes it (10_state.md R23). -/
theorem Effect.capEn {s t : State} {i : Instr} (h : Effect s i t) :
    i = .init ∧ t.capEn = true ∨ i ≠ .init ∧ t.capEn = s.capEn := by
  cases h with
  | enable => exact .inl ⟨rfl, rfl⟩
  | reply _ hi _ => exact .inr ⟨hi, rfl⟩
  | record | drop | poll | decode => exact .inr ⟨nofun, rfl⟩

/-! ### What the scan keeps of the decoder's registers -/

theorem missResult_cases (p : MissPolicy) (r : DecoderRegs) :
    missResult p r = ⟨r, false⟩ ∨ missResult p r = ⟨{ r with st := .noSignal, pos := 0 }, false⟩ := by
  cases p
  · exact .inl rfl
  · exact .inr rfl

/-- A transition's result with a legal pair of state and position (10_state.md R28) that says stop exactly where it
enters a terminal state (42_decoder.md R111). -/
structure StepResult.Legal (x : StepResult) : Prop where
  position : positionLegal x.regs.st x.regs.pos
  stops : x.stop = x.regs.st.terminal

theorem missResult_legal (p : MissPolicy) {r : DecoderRegs} (hr : r.st.terminal = false)
    (hpos : positionLegal r.st r.pos) : (missResult p r).Legal := by
  rcases missResult_cases p r with h | h <;> rw [h]
  · exact ⟨hpos, hr.symm⟩
  · exact ⟨rfl, rfl⟩

theorem resolveBit_legal {r : DecoderRegs} (b : Bool) (hpos : r.pos.toNat ≤ 31) : (resolveBit r b).Legal := by
  rcases resolveBit_cases r b hpos with ⟨-, h⟩ | ⟨hlt, h⟩ <;> rw [h]
  · exact ⟨rfl, rfl⟩
  · have hnext : (r.pos + 1).toNat ≤ 31 := by
      rw [BitVec.toNat_add]
      exact (Nat.mod_le _ _).trans hlt
    exact ⟨hnext, rfl⟩

theorem transition_legal (p : MissPolicy) {r : DecoderRegs} (d tot : Nat) (hr : r.st.terminal = false)
    (hpos : positionLegal r.st r.pos) : (transition p r d tot).Legal := by
  have hmiss := missResult_legal p hr hpos
  rcases transition_cases p r d tot hr with ⟨-, h⟩ | ⟨-, ⟨hst, h⟩ | ⟨hst, -, h⟩ | ⟨hst, -, -, h⟩ |
    ⟨-, -, -, h⟩ | ⟨hst, -, h⟩ | ⟨-, -, h⟩ | ⟨b, hst, -, h⟩ | ⟨-, -, h⟩⟩ <;> rw [h]
  · exact ⟨rfl, rfl⟩
  · exact ⟨hpos, hr.symm⟩
  · rw [hst] at hpos
    exact ⟨by simp [hpos], rfl⟩
  · rw [hst] at hpos
    exact ⟨hpos, rfl⟩
  · exact hmiss
  · rw [hst] at hpos
    exact ⟨hpos, rfl⟩
  · exact hmiss
  · rw [hst] at hpos
    exact resolveBit_legal b hpos
  · exact hmiss

/-- The scan's loop keeps the legal pairs: it applies transitions to registers in a non-terminal state alone. -/
theorem State.scanFrom_positionLegal {s : State} (n k : Nat) {r r' : DecoderRegs} (hr : r.st.terminal = false)
    (hpos : positionLegal r.st r.pos) (h : s.scanFrom n k r = .ok r') : positionLegal r'.st r'.pos := by
  induction n generalizing k r with
  | zero => cases h; exact hpos
  | succ n ih =>
    unfold State.scanFrom at h
    cases hd : s.delta k with
    | error f => rw [hd] at h; cases h
    | ok d =>
      cases htot : s.total k with
      | error f => rw [hd, htot] at h; cases h
      | ok tot =>
        have hlegal := transition_legal s.cfg.missPolicy d tot hr hpos
        simp only [hd, htot, bind, Except.bind] at h
        split at h
        · cases h; exact hlegal.position
        · next hgo => exact ih (k + 1) (by rw [← hlegal.stops]; simpa using hgo) hlegal.position h

theorem State.scan_positionLegal {s : State} {r : DecoderRegs} (h : s.scan = .ok r) : positionLegal r.st r.pos :=
  State.scanFrom_positionLegal _ _ (r := decoderReset) rfl rfl h

end Sys2Proof.Machine
end

section
/-! PROOFS. The state's invariants: they hold at power-on and every step keeps them. -/

namespace Sys2Proof.Machine

/-- The invariants speak of the parameters, the buffer, `w`, `st`, `pos` and `cap_susp` alone. -/
theorem State.Inv.congr {s t : State} (h : s.Inv) (hcfg : t.cfg = s.cfg) (hbuf : t.buf = s.buf) (hw : t.w = s.w)
    (hst : t.st = s.st) (hpos : t.pos = s.pos) (hsusp : t.capSusp = s.capSusp) : t.Inv where
  params := hcfg ▸ h.params
  length := by rw [hcfg, hw]; exact h.length
  canonical := hbuf ▸ h.canonical
  entries := by rw [hcfg, hbuf]; exact h.entries
  recorded := by rw [hw, hbuf]; exact h.recorded
  position := by rw [hst, hpos]; exact h.position
  resumed := hsusp.trans h.resumed

theorem State.Inv.accept {s : State} (h : s.Inv) (a : Agent) (bytes : List Byte) (rest : List Agent) :
    (s.accept a bytes rest).Inv := h.congr (by simp) (by simp) (by simp) (by simp) (by simp) (by simp)

theorem State.Inv.append {s : State} (h : s.Inv) (hroom : s.w < s.cfg.cap) {t : Nat} (ht : t < 2 ^ s.cfg.width) :
    (s.append t).Inv where
  params := h.params
  length := hroom
  canonical := Memory.wf_write h.canonical _ _
  entries e he := by
    rcases Memory.mem_write _ _ _ _ he with rfl | he
    · exact ⟨hroom, ht⟩
    · exact h.entries e he
  recorded i hi := by
    rw [State.append_buf, Memory.read_write]
    split
    · rfl
    · exact h.recorded i (by simp at hi; omega)
  position := h.position
  resumed := h.resumed

theorem State.Inv.setDecoder {s : State} (h : s.Inv) {r : DecoderRegs} (hr : positionLegal r.st r.pos) :
    (s.setDecoder r).Inv := ⟨h.params, h.length, h.canonical, h.entries, h.recorded, hr, h.resumed⟩

theorem State.Inv.resetCapture {s : State} (h : s.Inv) : s.resetCapture.Inv :=
  ⟨h.params, Nat.zero_le _, h.canonical, h.entries, nofun, h.position, h.resumed⟩

theorem State.Inv.resume {s : State} (h : s.Inv) : s.resume.Inv :=
  h.congr rfl rfl rfl rfl rfl h.resumed.symm

theorem State.Inv.reply {s : State} (h : s.Inv) (v : Reply) : (s.reply v).Inv := h.congr rfl rfl rfl rfl rfl rfl

/-- Every operation keeps the invariants. -/
theorem Effect.keeps_inv {s t : State} {i : Instr} (he : Effect s i t) (h : s.Inv) : t.Inv := by
  cases he with
  | enable => exact h.congr rfl rfl rfl rfl rfl rfl
  | record time _ _ hroom => exact h.append hroom (Nat.mod_lt _ (Nat.two_pow_pos _))
  | drop => exact h
  | poll r _ hscan => exact ((h.setDecoder (State.scan_positionLegal hscan)).resetCapture.resume).reply _
  | decode r hscan => exact (h.setDecoder (State.scan_positionLegal hscan)).resume
  | reply _ _ v => exact h.reply v

theorem State.powerOn_inv {c : Config} (hc : c.wf) : (State.powerOn c).Inv :=
  ⟨hc, Nat.zero_le _, rfl, nofun, nofun, rfl, rfl⟩

/-- Settles O9: the buffer is empty and the decoder is in state 0 at position 0. -/
theorem powerOnMeetsTheInvariants : Obligations.PowerOnMeetsTheInvariants :=
  ⟨State.powerOn_inv (by decide), fun _ => State.powerOn_inv⟩

/-- Settles O10: the fetch touches no element the invariants speak of, and every operation's effect keeps them. -/
theorem stepKeepsTheInvariants : Obligations.StepKeepsTheInvariants := by
  intro s t hinv hstep
  rcases step_next_cases hstep with ⟨order, rfl⟩ | ⟨i, a, bytes, rest, -, -, -, hexec⟩
  · exact hinv.congr rfl rfl rfl rfl rfl rfl
  · exact (exec_effect hexec).keeps_inv (hinv.accept a bytes rest)

end Sys2Proof.Machine
end

section
/-! PROOFS. Which operation writes which element of the state, when capture is enabled, and what a burst of edges
records. -/

namespace Sys2Proof.Machine

theorem exec_edge_of_dropped {s : State} {t : Nat} (hsusp : s.capSusp = false)
    (hdrop : s.capEn = false ∨ s.cfg.cap ≤ s.w) : exec (.edge t) s = .next s := by
  rcases exec_edge_cases t s with ⟨hs, -⟩ | ⟨-, hen, hroom, -⟩ | ⟨-, -, hexec⟩
  · simp [hsusp] at hs
  · rcases hdrop with h | h
    · simp [hen] at h
    · omega
  · exact hexec

/-- A burst of edges is recorded in order from `buf[w]` on up to the capacity, and touches `buf` and `w` alone. -/
theorem execAll_edges {s : State} (times : List Nat) (hlen : s.w ≤ s.cfg.cap) (hen : s.capEn = true)
    (hsusp : s.capSusp = false) (hfit : ∀ x ∈ times, x < 2 ^ s.cfg.width) :
    ∃ t, execAll (times.map Instr.edge) s = .next t ∧ t.w = min s.cfg.cap (s.w + times.length) ∧
      (∀ (k : Nat) (h : k < times.length), s.w + k < s.cfg.cap → t.buf.read (s.w + k) = some times[k]) ∧
      (∀ k, k < s.w → t.buf.read k = s.buf.read k) ∧ t = { s with buf := t.buf, w := t.w } := by
  induction times generalizing s with
  | nil => exact ⟨s, rfl, by simpa using hlen, nofun, fun _ _ => rfl, rfl⟩
  | cons x times ih =>
    rw [List.forall_mem_cons] at hfit
    obtain ⟨hx, htimes⟩ := hfit
    rcases Nat.lt_or_ge s.w s.cfg.cap with hroom | hfull
    · have hedge := exec_edge_of_room hsusp hen hroom hx
      obtain ⟨t, hrun, hw, hentry, hold, hframe⟩ := ih (s := s.append x) hroom hen hsusp htimes
      simp only [State.append_w, State.append_cfg, State.append_buf] at hw hentry hold
      refine ⟨t, ?_, ?_, ?_, ?_, hframe⟩
      · simpa [execAll, hedge] using hrun
      · rw [hw, List.length_cons]; omega
      · intro k hk hcap
        cases k with
        | zero => rw [Nat.add_zero, hold s.w (Nat.lt_succ_self _), Memory.read_write_same]; rfl
        | succ k =>
          rw [show s.w + (k + 1) = s.w + 1 + k by omega]
          exact hentry k (by simpa using hk) (by omega)
      · intro k hk
        rw [hold k (by omega), Memory.read_write_of_ne _ _ _ _ hk.ne]
    · have hedge := exec_edge_of_dropped (t := x) hsusp (.inr hfull)
      obtain ⟨t, hrun, hw, -, hold, hframe⟩ := ih hlen hen hsusp htimes
      refine ⟨t, ?_, ?_, fun k _ hcap => ?_, hold, hframe⟩
      · simpa [execAll, hedge] using hrun
      · rw [hw, List.length_cons]; omega
      · omega

/-- Settles O13: each effect writes only the elements of its own operation. -/
theorem elementsAreWrittenOnlyByTheirOperations : Obligations.ElementsAreWrittenOnlyByTheirOperations := by
  intro s t i h
  cases exec_effect h with
  | enable => simp
  | record time => simp
  | drop time => simp
  | poll r => simp
  | decode r => simp
  | reply i hi v => simp

/-- Settles O15: only INIT writes `cap_en`, the fetch does not, and without the recorder EDGE is dropped. -/
theorem captureStaysEnabledAfterInit : Obligations.CaptureStaysEnabledAfterInit := by
  refine ⟨fun s t h => ?_, fun s t hstep hen => ?_, fun s t i h hen hi => ?_, fun s time hen hsusp => ?_⟩
  · rw [exec_init] at h; cases h; rfl
  · rcases step_next_cases hstep with ⟨order, rfl⟩ | ⟨i, a, bytes, rest, -, -, -, hexec⟩
    · exact hen
    · rcases (exec_effect hexec).capEn with ⟨-, h⟩ | ⟨-, h⟩
      · exact h
      · rw [h, State.accept_capEn, hen]
  · rcases (exec_effect h).capEn with ⟨hinit, -⟩ | ⟨-, h⟩
    · exact absurd hinit hi
    · exact h.trans hen
  · exact exec_edge_of_dropped hsusp (.inl hen)

/-- Settles O18: the invariants give the bound on `w` and that capture is not suspended. -/
theorem edgesRecordInOrderUpToCapacity : Obligations.EdgesRecordInOrderUpToCapacity :=
  fun _ times hinv hen hfit => execAll_edges times hinv.length hen hinv.resumed hfit

end Sys2Proof.Machine
end

section
/-! PROOFS. The converse of the round trip: a field's bytes are determined by its value, so what the decoder accepts
is the encoding of what it answers (30_encoding.md R60 to R63); and the words the spec writes out. -/

namespace Sys2Proof

/-! ### Byte fields -/

theorem foldl_bytes_div (bs : List Byte) (acc : Nat) :
    bs.foldl (fun acc b => acc * 256 + b.toNat) acc / 256 ^ bs.length = acc := by
  induction bs generalizing acc with
  | nil => simp
  | cons b bs ih =>
    rw [List.foldl_cons, List.length_cons, pow_succ, ← Nat.div_div_eq_div_mul, ih]
    have hb : b.toNat < 256 := b.isLt
    omega

theorem beBytes_foldl (bs : List Byte) (acc : Nat) :
    beBytes bs.length (bs.foldl (fun acc b => acc * 256 + b.toNat) acc) = bs := by
  induction bs generalizing acc with
  | nil => rfl
  | cons b bs ih =>
    have hb : BitVec.ofNat 8 (acc * 256 + b.toNat) = b := by
      apply BitVec.eq_of_toNat_eq
      rw [BitVec.toNat_ofNat, Nat.mul_add_mod_self_right, Nat.mod_eq_of_lt b.isLt]
    rw [List.length_cons, beBytes, List.foldl_cons, foldl_bytes_div, ih, hb]

theorem beBytes_beValue (bs : List Byte) : beBytes bs.length (beValue bs) = bs := beBytes_foldl bs 0

/-- A field is read exactly where its value's own bytes stand in front (30_encoding.md R63). -/
theorem takeField_ok_iff (bits : Nat) (bytes rest : List Byte) (v : Nat) :
    takeField bits bytes = .ok (v, rest) ↔ bytes = beBytes (fieldBytes bits) v ++ rest ∧ v < 2 ^ bits := by
  constructor
  · intro h
    simp only [takeField] at h
    split at h
    · cases h
    · next hlen =>
      have htake : (bytes.take (fieldBytes bits)).length = fieldBytes bits :=
        List.length_take_of_le (not_lt.1 hlen)
      have hbytes := beBytes_beValue (bytes.take (fieldBytes bits))
      split at h
      · next hv =>
        cases h
        rw [htake] at hbytes
        exact ⟨by rw [hbytes, List.take_append_drop], hv⟩
      · cases h
  · rintro ⟨rfl, hv⟩
    exact takeField_beBytes rfl hv rest

theorem bytes_of_takeField_ofNat {n v : Nat} {bytes rest : List Byte} (h : takeField n bytes = .ok (v, rest)) :
    bytes = beBytes (fieldBytes n) (BitVec.ofNat n v).toNat ++ rest := by
  obtain ⟨hbytes, hv⟩ := (takeField_ok_iff ..).1 h
  rw [BitVec.toNat_ofNat, Nat.mod_eq_of_lt hv, hbytes]

/-! ### Operands -/

theorem exists_ok_of_bind_eq_ok {ε α β : Type} {x : Except ε α} {f : α → Except ε β} {r : β}
    (h : x >>= f = .ok r) : ∃ a, x = .ok a ∧ f a = .ok r := by
  cases x with
  | error e => cases h
  | ok a => exact ⟨a, rfl, h⟩

theorem decodeEdge_ok {c : Config} {bytes rest : List Byte} {i : Instr} (h : decodeEdge c bytes = .ok (i, rest)) :
    0x02#8 :: bytes = encode c i ++ rest ∧ i.fits c := by
  obtain ⟨⟨t, _⟩, ht, h⟩ := exists_ok_of_bind_eq_ok h
  cases h
  obtain ⟨rfl, hfits⟩ := (takeField_ok_iff ..).1 ht
  exact ⟨rfl, hfits⟩

theorem decodeMatch_ok {c : Config} {bytes rest : List Byte} {i : Instr} (h : decodeMatch c bytes = .ok (i, rest)) :
    0x07#8 :: bytes = encode c i ++ rest ∧ i.fits c := by
  obtain ⟨⟨m, _⟩, hm, h⟩ := exists_ok_of_bind_eq_ok h
  obtain ⟨⟨cls, _⟩, hcls, h⟩ := exists_ok_of_bind_eq_ok h
  cases h
  obtain ⟨rfl, hfits⟩ := (takeField_ok_iff ..).1 hm
  obtain rfl := bytes_of_takeField_ofNat hcls
  exact ⟨by simp [encode, fieldBytes], hfits⟩

theorem decodeStep_ok {c : Config} {bytes rest : List Byte} {i : Instr} (h : decodeStep c bytes = .ok (i, rest)) :
    0x08#8 :: bytes = encode c i ++ rest ∧ i.fits c := by
  obtain ⟨⟨st, _⟩, hst, h⟩ := exists_ok_of_bind_eq_ok h
  obtain ⟨⟨pos, _⟩, hpos, h⟩ := exists_ok_of_bind_eq_ok h
  obtain ⟨⟨frame, _⟩, hframe, h⟩ := exists_ok_of_bind_eq_ok h
  obtain ⟨⟨d, _⟩, hd, h⟩ := exists_ok_of_bind_eq_ok h
  obtain ⟨⟨tot, _⟩, htot, h⟩ := exists_ok_of_bind_eq_ok h
  cases h
  obtain rfl := bytes_of_takeField_ofNat hst
  obtain rfl := bytes_of_takeField_ofNat hpos
  obtain rfl := bytes_of_takeField_ofNat hframe
  obtain ⟨rfl, hdfits⟩ := (takeField_ok_iff ..).1 hd
  obtain ⟨rfl, htotfits⟩ := (takeField_ok_iff ..).1 htot
  exact ⟨by simp [encode, fieldBytes], hdfits, htotfits⟩

theorem decodeOperands_ok {c : Config} {op : Nat} {bytes rest : List Byte} {i : Instr}
    (h : decodeOperands c op bytes = .ok (i, rest)) :
    BitVec.ofNat 8 op :: bytes = encode c i ++ rest ∧ i.fits c := by
  unfold decodeOperands at h
  split at h
  case h_2 => exact decodeEdge_ok h
  case h_7 => exact decodeMatch_ok h
  case h_8 => exact decodeStep_ok h
  all_goals cases h
  all_goals exact ⟨rfl, trivial⟩

/-! ### Operations -/

/-- A command byte whose reserved bits are 0 is its op code. -/
theorem ofNat_opCode {b : Byte} (h : commandBits b = 0) : BitVec.ofNat 8 (opCode b) = b := by
  unfold commandBits at h
  apply BitVec.eq_of_toNat_eq
  rw [BitVec.toNat_ofNat, opCode]
  omega

theorem decode_cons_ok {c : Config} {b : Byte} {tail rest : List Byte} {i : Instr}
    (h : decode c (b :: tail) = .ok (i, rest)) :
    commandBits b = 0 ∧ decodeOperands c (opCode b) tail = .ok (i, rest) := by
  rw [decode] at h
  split at h
  · cases h
  · split at h
    · cases h
    · next hbits => exact ⟨not_not.1 hbits, h⟩

/-! ### The statements about the encoding -/

/-- Settles O1: an operation's encoding is read back field by field. -/
theorem decodeOfEncodeIsTheOperation : Obligations.DecodeOfEncodeIsTheOperation := decode_encode_append

/-- Settles O2: an accepted command byte is its op code, and each accepted operand field is its value's own bytes. -/
theorem decodedBytesAreTheEncoding : Obligations.DecodedBytesAreTheEncoding := by
  intro c bytes rest i h
  cases bytes with
  | nil => cases h
  | cons b tail =>
    obtain ⟨hbits, hoperands⟩ := decode_cons_ok h
    rw [← ofNat_opCode hbits]
    exact decodeOperands_ok hoperands

/-- Settles O3: each word is the encoding of its operation. -/
theorem writtenOutWordsDecode : Obligations.WrittenOutWordsDecode := by
  refine ⟨?_, ?_, ?_, ?_, ?_⟩
  · exact decode_encode_append Config.testVectors .init [] trivial
  · exact decode_encode_append Config.testVectors (.edge 14500) [] (by decide)
  · exact decode_encode_append Config.testVectors .poll [] trivial
  · exact decode_encode_append Config.testVectors (.matchPort 11700 0) [] (by decide)
  · exact decode_encode_append Config.testVectors (.stepPort 3 5 0x14 1690 2250) [] (by decide)

end Sys2Proof
end

section
/-! PROOFS. The acceptance windows of the timing classes, and which of them meet (30_encoding.md R66 to R68). -/

namespace Sys2Proof.Machine

/-- The tolerance of 3/10 on both sides of `c`, without a subtraction (41_comparator.md R90, R93). -/
theorem toleranceMatch_iff (m c : Nat) : toleranceMatch m c = true ↔ 7 * c ≤ 10 * m ∧ 10 * m ≤ 13 * c := by
  rw [toleranceMatch, decide_eq_true_iff]
  omega

theorem DurationClass.accepts_iff (k : DurationClass) (m : Nat) :
    k.accepts m = true ↔ 7 * k.canonical ≤ 10 * m ∧ 10 * m ≤ 13 * k.canonical := toleranceMatch_iff m k.canonical

/-- Two classes are disjoint where the upper bound of one is below the lower bound of the other. -/
theorem DurationClass.not_accepts_both {k j : DurationClass} (h : 13 * j.canonical < 7 * k.canonical) (m : Nat) :
    ¬ (k.accepts m = true ∧ j.accepts m = true) := by
  rw [accepts_iff, accepts_iff]
  omega

theorem DurationClass.window_below_agcBurst {k : DurationClass} (hk : k ≠ .agcBurst) :
    13 * k.canonical < 7 * DurationClass.agcBurst.canonical := by
  cases k with
  | agcBurst => exact absurd rfl hk
  | startSpacer | repeatSpacer | bitBurst | zeroBitTotal | oneBitTotal => decide

/-- The AGC test comes before the rule of the current state (42_decoder.md R104). -/
theorem transition_of_agcBurst {d : Nat} (h : DurationClass.agcBurst.accepts d = true) (p : MissPolicy)
    (r : DecoderRegs) (tot : Nat) : transition p r d tot = ⟨⟨.seekingLeadSpace, 0, r.frame⟩, false⟩ := by
  rw [transition, if_pos h]

/-- Settles O21: the bounds are 7/10 and 13/10 of the canonical duration, which are exact integers. -/
theorem acceptanceWindows : Obligations.AcceptanceWindows := by
  refine ⟨rfl, rfl, rfl, rfl, rfl, rfl, fun m => ?_⟩
  simp only [DurationClass.accepts_iff, DurationClass.canonical]
  omega

/-- Settles O22: each of the windows that must not meet lies wholly below the other, the repeat spacer and the one-bit
total have one canonical duration, and the transition tests for the AGC burst first. -/
theorem classesAreUnambiguous : Obligations.ClassesAreUnambiguous := by
  refine ⟨fun m => ⟨?spacers, ?bits, ?agcBurst, rfl⟩, ?agcFirst⟩
  case spacers => exact DurationClass.not_accepts_both (by decide) m
  case bits => exact mt And.symm (DurationClass.not_accepts_both (by decide) m)
  case agcBurst => exact fun _ hk => DurationClass.not_accepts_both (DurationClass.window_below_agcBurst hk) m
  case agcFirst => exact fun p _ _ _ tot hagc _ => transition_of_agcBurst hagc p _ tot

end Sys2Proof.Machine
end

section
/-! PROOFS. The statements about one edge: recorded behind what is there, dropped without a trace, or a fault while
capture is suspended (40_recorder.md R80, R83, R85). -/

namespace Sys2Proof.Machine

theorem exec_edge_of_suspended {s : State} (t : Nat) (hsusp : s.capSusp = true) :
    exec (.edge t) s = .fault .edgeWhileSuspended := by
  rcases exec_edge_cases t s with ⟨-, hexec⟩ | ⟨hresumed, -⟩ | ⟨hresumed, -⟩
  · exact hexec
  · simp [hsusp] at hresumed
  · simp [hsusp] at hresumed

theorem execAll_cons_of_next {i : Instr} (is : List Instr) {s t : State} (h : exec i s = .next t) :
    execAll (i :: is) s = execAll is t := by
  simp only [execAll, h]

/-- Settles O16: an edge with room is one append, whose write is read back at `w` alone; any other is dropped. -/
theorem edgeRecordsOrChangesNothing : Obligations.EdgeRecordsOrChangesNothing := by
  intro s time hsusp hfit
  refine ⟨fun hen hroom => ?recorded, fun _ hfull => ?full, fun hoff => ?notInstalled, rfl⟩
  case recorded =>
    exact ⟨s.append time, exec_edge_of_room hsusp hen hroom hfit, State.append_w s time,
      Memory.read_write_same s.buf s.w time, Memory.read_write_of_ne s.buf s.w time, rfl⟩
  case full => exact exec_edge_of_dropped hsusp (.inr hfull)
  case notInstalled => exact exec_edge_of_dropped hsusp (.inl hoff)

/-- Settles O17: the dropped edge leaves the very state it found, so what follows starts from the same state. -/
theorem droppedEdgeLeavesNoTrace : Obligations.DroppedEdgeLeavesNoTrace := by
  intro s time later hsusp hfull
  have hdrop : exec (.edge time) s = .next s := exec_edge_of_dropped hsusp (.inr hfull.ge)
  exact ⟨hdrop, execAll_cons_of_next later hdrop⟩

/-- Settles O19: of the cases of EDGE only the fault has capture suspended. -/
theorem suspendedEdgeIsAFault : Obligations.SuspendedEdgeIsAFault :=
  fun _ time hsusp => exec_edge_of_suspended time hsusp

end Sys2Proof.Machine
end

section
/-! PROOFS. The comparator as a predicate on the integers and as a window (41_comparator.md R90, R93), and the test
ports MATCH and STEP, whose return depends on the operands and the parameters alone (R92, R94). -/

namespace Sys2Proof.Machine

/-! ### The comparator -/

/-- The model's comparator is the rule's, on the integers (41_comparator.md R90). -/
theorem toleranceMatch_iff_abs (m c : Nat) :
    toleranceMatch m c = true ↔ |(m : Int) - (c : Int)| * 10 ≤ (c : Int) * 3 := by
  rw [toleranceMatch, decide_eq_true_iff, Int.abs_eq_natAbs]
  omega

/-- The window on the natural numbers, whose bounds are 7/10 of `c` rounded up and 13/10 of `c` rounded down. -/
theorem toleranceMatch_iff_window (m c : Nat) :
    toleranceMatch m c = true ↔ (7 * c + 9) / 10 ≤ m ∧ m ≤ 13 * c / 10 := by
  rw [toleranceMatch_iff]
  omega

theorem toleranceMatch_zero_left {c : Nat} (hc : 0 < c) : toleranceMatch 0 c = false := by
  rw [Bool.eq_false_iff, Ne, toleranceMatch_iff]
  omega

theorem DurationClass.canonical_pos (k : DurationClass) : 0 < k.canonical := by cases k <;> decide

theorem DurationClass.canonical_le (k : DurationClass) : k.canonical ≤ 9000 := by cases k <;> decide

theorem DurationClass.ten_dvd_canonical (k : DurationClass) : 10 ∣ k.canonical := by cases k <;> decide

theorem DurationClass.not_accepts_zero (k : DurationClass) : k.accepts 0 = false :=
  toleranceMatch_zero_left k.canonical_pos

/-- The AGC burst's window ends at 11700, and no other class has a longer canonical duration (30_encoding.md R67). -/
theorem DurationClass.not_accepts_of_gt (k : DurationClass) {m : Nat} (hm : 11700 < m) : k.accepts m = false := by
  have hk := k.canonical_le
  rw [Bool.eq_false_iff, Ne, accepts_iff]
  omega

/-- Settles O20: both forms of the window restate the comparator, and a canonical duration is a multiple of 10. -/
theorem comparatorIsTheToleranceWindow : Obligations.ComparatorIsTheToleranceWindow := by
  refine ⟨fun m c hc => ⟨?integers, ?window, ?zero⟩, fun k => ⟨?lower, ?upper⟩⟩
  case integers => exact toleranceMatch_iff_abs m c
  case window => exact toleranceMatch_iff_window m c
  case zero => exact toleranceMatch_zero_left hc
  case lower => exact k.ten_dvd_canonical.mul_left 7
  case upper => exact k.ten_dvd_canonical.mul_left 13

/-! ### MATCH -/

/-- The selector picks a class by its row in the table of canonical durations; 6 and 7 have no row (30_encoding.md
R62, R66). -/
theorem classOfSelector_map_canonical (cls : BitVec 3) :
    (classOfSelector cls).map DurationClass.canonical = [9000, 4500, 2250, 560, 1120, 2250][cls.toNat]? := by
  revert cls
  decide

theorem classOfSelector_of_lt {cls : BitVec 3} (h : cls.toNat < 6) :
    ∃ k, classOfSelector cls = some k ∧ k.canonical = [9000, 4500, 2250, 560, 1120, 2250][cls.toNat] := by
  have hrow := classOfSelector_map_canonical cls
  rwa [List.getElem?_eq_getElem h, Option.map_eq_some_iff] at hrow

theorem classOfSelector_of_ge {cls : BitVec 3} (h : 6 ≤ cls.toNat) : classOfSelector cls = none := by
  have hrow := classOfSelector_map_canonical cls
  rwa [List.getElem?_eq_none h, Option.map_eq_none_iff] at hrow

theorem exec_matchPort_of_class {cls : BitVec 3} {k : DurationClass} (hk : classOfSelector cls = some k) (m : Nat)
    (s : State) : exec (.matchPort m cls) s = .next (s.reply (.hit (k.accepts (operandBits s.cfg m)))) := by
  rcases exec_matchPort_cases m cls s with ⟨hnone, -⟩ | ⟨j, hj, hexec⟩
  · simp [hk] at hnone
  · obtain rfl : k = j := Option.some.inj (hk.symm.trans hj)
    exact hexec

theorem exec_matchPort_of_reserved {cls : BitVec 3} (hcls : classOfSelector cls = none) (m : Nat) (s : State) :
    exec (.matchPort m cls) s = .refused .reservedClassSelector := by
  rcases exec_matchPort_cases m cls s with ⟨-, hexec⟩ | ⟨k, hk, -⟩
  · exact hexec
  · simp [hcls] at hk

/-- A one-byte field, as MATCH carries its selector in (30_encoding.md R63). -/
theorem beBytes_one (v : Nat) : beBytes 1 v = [BitVec.ofNat 8 v] := by
  simp [beBytes]

/-- Settles O23: MATCH returns the comparator's answer for the selector's row. No window reaches 0 or, where `W` is
at least 14, `2^W - 1`, and the rows 2 and 5 hold the same duration. -/
theorem matchPortReturnsTheComparison : Obligations.MatchPortReturnsTheComparison := by
  intro s m cls hwidth hm
  have hbits : operandBits s.cfg m = m := Nat.mod_eq_of_lt hm
  have hlarge : 2 ^ 14 ≤ 2 ^ s.cfg.width := Nat.pow_le_pow_right (by decide) hwidth
  refine ⟨fun h => ?row, fun h => ?reserved, ?agree, ?bytes⟩
  case row =>
    obtain ⟨k, hk, hcanonical⟩ := classOfSelector_of_lt h
    refine ⟨k.accepts m, ?returned, ?comparison, ?extremes⟩
    case returned =>
      rw [exec_matchPort_of_class hk, hbits]
      rfl
    case comparison =>
      rw [← hcanonical]
      exact toleranceMatch_iff_abs m k.canonical
    case extremes =>
      rintro (rfl | rfl)
      · exact k.not_accepts_zero
      · exact k.not_accepts_of_gt (by omega)
  case reserved => exact exec_matchPort_of_reserved (classOfSelector_of_ge h) m s
  case agree =>
    rw [exec_matchPort_of_class (k := .repeatSpacer) rfl, exec_matchPort_of_class (k := .oneBitTotal) rfl]
    rfl
  case bytes => rw [encode, beBytes_one]

/-! ### What a test port depends on -/

theorem exec_matchPort_next {m : Nat} {cls : BitVec 3} {s t : State} (h : exec (.matchPort m cls) s = .next t) :
    ∃ k, classOfSelector cls = some k ∧ t = s.reply (.hit (k.accepts (operandBits s.cfg m))) := by
  rcases exec_matchPort_cases m cls s with ⟨-, hexec⟩ | ⟨k, hk, hexec⟩ <;> rw [hexec] at h <;> cases h
  exact ⟨k, hk, rfl⟩

theorem exec_stepPort_next {st : BitVec 3} {pos : BitVec 6} {frame : Frame} {d tot : Nat} {s t : State}
    (h : exec (.stepPort st pos frame d tot) s = .next t) :
    ∃ r, stepRegs st pos frame = some r ∧ t = s.reply
      (transition s.cfg.missPolicy r (operandBits s.cfg d) (operandBits s.cfg tot)).toReply := by
  rcases exec_stepPort_cases st pos frame d tot s with ⟨-, hexec⟩ | ⟨r, hr, hexec⟩ <;>
    rw [hexec] at h <;> cases h
  exact ⟨r, hr, rfl⟩

/-- Settles O24: the operands fix MATCH's class and STEP's registers, so the returned value is a function of the
operands and the parameters, and returning it is the whole effect. -/
theorem testPortsReadAndWriteNoState : Obligations.TestPortsReadAndWriteNoState := by
  rintro s s' t t' i hcfg (⟨m, cls, rfl⟩ | ⟨st, pos, frame, d, tot, rfl⟩) h h'
  · obtain ⟨k, hk, rfl⟩ := exec_matchPort_next h
    obtain ⟨k', hk', rfl⟩ := exec_matchPort_next h'
    obtain rfl : k = k' := Option.some.inj (hk.symm.trans hk')
    exact ⟨_, rfl, by rw [hcfg]; rfl⟩
  · obtain ⟨r, hr, rfl⟩ := exec_stepPort_next h
    obtain ⟨r', hr', rfl⟩ := exec_stepPort_next h'
    obtain rfl : r = r' := Option.some.inj (hr.symm.trans hr')
    exact ⟨_, rfl, by rw [hcfg]; rfl⟩

end Sys2Proof.Machine
end

section
/-! PROOFS. The transition function: each state's rule where the AGC test fails, the transition table, and the order of
the states (42_decoder.md R104 to R114). -/

namespace Sys2Proof.Machine

/-! ### The acceptance windows, class by class (30_encoding.md R67) -/

theorem DurationClass.accepts_iff_of_bounds {k : DurationClass} {lo hi : Nat} (hlo : 10 * lo = 7 * k.canonical)
    (hhi : 10 * hi = 13 * k.canonical) (m : Nat) : k.accepts m = true ↔ lo ≤ m ∧ m ≤ hi := by
  rw [accepts_iff]
  omega

theorem DurationClass.accepts_agcBurst_iff (m : Nat) : agcBurst.accepts m = true ↔ 6300 ≤ m ∧ m ≤ 11700 :=
  accepts_iff_of_bounds rfl rfl m

theorem DurationClass.accepts_repeatSpacer_iff (m : Nat) : repeatSpacer.accepts m = true ↔ 1575 ≤ m ∧ m ≤ 2925 :=
  accepts_iff_of_bounds rfl rfl m

theorem DurationClass.accepts_zeroBitTotal_iff (m : Nat) : zeroBitTotal.accepts m = true ↔ 784 ≤ m ∧ m ≤ 1456 :=
  accepts_iff_of_bounds rfl rfl m

theorem DurationClass.accepts_oneBitTotal_iff (m : Nat) : oneBitTotal.accepts m = true ↔ 1575 ≤ m ∧ m ≤ 2925 :=
  accepts_iff_of_bounds rfl rfl m

/-- Where the first of two disjoint classes matches, the second does not. -/
theorem DurationClass.not_accepts_of_accepts {k j : DurationClass} (hdisjoint : 13 * j.canonical < 7 * k.canonical)
    {m : Nat} (hj : j.accepts m = true) : k.accepts m = false := by
  rw [Bool.eq_false_iff]
  exact fun hk => not_accepts_both hdisjoint m ⟨hk, hj⟩

/-! ### A bit and a miss (42_decoder.md R108, R109, R112) -/

theorem bitOfTotal_eq_some {tot : Nat} {b : Bool}
    (h : DurationClass.zeroBitTotal.accepts tot = true ∧ b = false ∨
      DurationClass.oneBitTotal.accepts tot = true ∧ b = true) : bitOfTotal tot = some b := by
  rcases h with ⟨hzero, rfl⟩ | ⟨hone, rfl⟩
  · rw [bitOfTotal, if_pos hzero]
  · have hzero : ¬ DurationClass.zeroBitTotal.accepts tot = true := fun hzero =>
      DurationClass.not_accepts_both (by decide) tot ⟨hone, hzero⟩
    rw [bitOfTotal, if_neg hzero, if_pos hone]

theorem bitOfTotal_eq_none {tot : Nat} (hzero : DurationClass.zeroBitTotal.accepts tot = false)
    (hone : DurationClass.oneBitTotal.accepts tot = false) : bitOfTotal tot = none := by
  simp [bitOfTotal, hzero, hone]

theorem missResult_eq_ite (p : MissPolicy) (r : DecoderRegs) :
    missResult p r = if p = .hold then ⟨r, false⟩ else ⟨⟨.noSignal, 0, r.frame⟩, false⟩ := by
  cases p <;> rfl

/-- A miss keeps the state, or under ABANDON goes back to NO_SIGNAL. -/
theorem missResult_st (p : MissPolicy) (r : DecoderRegs) :
    (missResult p r).regs.st = r.st ∨ p = .abandon ∧ (missResult p r).regs.st = .noSignal := by
  cases p
  · exact .inl rfl
  · exact .inr ⟨rfl, rfl⟩

/-- A resolved bit completes the frame and stops, or seeks the next burst and goes on, at any position. -/
theorem resolveBit_st_stop (r : DecoderRegs) (b : Bool) :
    (resolveBit r b).regs.st = .frameComplete ∧ (resolveBit r b).stop = true ∨
    (resolveBit r b).regs.st = .seekingBurst ∧ (resolveBit r b).stop = false := by
  simp only [resolveBit]
  split
  · exact .inl ⟨rfl, rfl⟩
  · exact .inr ⟨rfl, rfl⟩

/-! ### The state's rule, where the delta is no AGC burst -/

section NoAgcBurst
variable {d : Nat} (hagc : DurationClass.agcBurst.accepts d = false) (p : MissPolicy) (pos : BitVec 6) (frame : Frame)
include hagc

theorem transition_of_not_agcBurst (r : DecoderRegs) (tot : Nat) : transition p r d tot = stateRule p r d tot := by
  rw [transition, if_neg (by simp [hagc])]

theorem transition_noSignal (tot : Nat) :
    transition p ⟨.noSignal, pos, frame⟩ d tot = ⟨⟨.noSignal, pos, frame⟩, false⟩ :=
  transition_of_not_agcBurst hagc p _ tot

theorem transition_seekingLeadSpace (tot : Nat) :
    transition p ⟨.seekingLeadSpace, pos, frame⟩ d tot =
      if DurationClass.startSpacer.accepts d then ⟨⟨.seekingBurst, pos, frame⟩, false⟩
      else if DurationClass.repeatSpacer.accepts d then ⟨⟨.repeatCode, pos, frame⟩, true⟩
      else missResult p ⟨.seekingLeadSpace, pos, frame⟩ :=
  transition_of_not_agcBurst hagc p _ tot

theorem transition_seekingBurst (tot : Nat) :
    transition p ⟨.seekingBurst, pos, frame⟩ d tot =
      if DurationClass.bitBurst.accepts d then ⟨⟨.readingBits, pos, frame⟩, false⟩
      else missResult p ⟨.seekingBurst, pos, frame⟩ :=
  transition_of_not_agcBurst hagc p _ tot

theorem transition_readingBits_of_bit {tot : Nat} {b : Bool} (hbit : bitOfTotal tot = some b) :
    transition p ⟨.readingBits, pos, frame⟩ d tot = resolveBit ⟨.readingBits, pos, frame⟩ b := by
  rw [transition_of_not_agcBurst hagc]
  simp only [stateRule, readBit, hbit]

theorem transition_readingBits_of_miss {tot : Nat} (hbit : bitOfTotal tot = none) :
    transition p ⟨.readingBits, pos, frame⟩ d tot = missResult p ⟨.readingBits, pos, frame⟩ := by
  rw [transition_of_not_agcBurst hagc]
  simp only [stateRule, readBit, hbit]

end NoAgcBurst

/-! ### Terminal states (42_decoder.md R111) -/

theorem DecoderState.terminal_iff (st : DecoderState) :
    st.terminal = true ↔ st = .frameComplete ∨ st = .repeatCode := by
  cases st <;> decide

theorem DecoderState.terminal_eq_false {st : DecoderState} (hcomplete : st ≠ .frameComplete)
    (hrepeat : st ≠ .repeatCode) : st.terminal = false := by
  rw [Bool.eq_false_iff, Ne, terminal_iff]
  exact not_or.2 ⟨hcomplete, hrepeat⟩

/-- A transition from a non-terminal state, at any position, stops exactly where it enters a terminal one. -/
theorem transition_stop_eq_terminal (p : MissPolicy) {r : DecoderRegs} (d tot : Nat) (hr : r.st.terminal = false) :
    (transition p r d tot).stop = (transition p r d tot).regs.st.terminal := by
  have hmiss : (missResult p r).stop = (missResult p r).regs.st.terminal := by
    rcases missResult_cases p r with h | h <;> rw [h]
    · exact hr.symm
    · rfl
  rcases transition_cases p r d tot hr with ⟨-, h⟩ | ⟨-, ⟨-, h⟩ | ⟨-, -, h⟩ | ⟨-, -, -, h⟩ | ⟨-, -, -, h⟩ |
    ⟨-, -, h⟩ | ⟨-, -, h⟩ | ⟨b, -, -, h⟩ | ⟨-, -, h⟩⟩ <;> rw [h]
  · rfl
  · exact hr.symm
  · rfl
  · rfl
  · exact hmiss
  · rfl
  · exact hmiss
  · rcases resolveBit_st_stop r b with ⟨hst, hstop⟩ | ⟨hst, hstop⟩ <;> rw [hst, hstop] <;> rfl
  · exact hmiss

/-! ### The statements about the transition function -/

/-- Settles O25: the AGC test comes first, whatever the state. -/
theorem resynchronizationTakesPrecedence : Obligations.ResynchronizationTakesPrecedence :=
  fun p _ _ _ d tot _ _ hlo hhi =>
    transition_of_agcBurst ((DurationClass.accepts_agcBurst_iff d).2 ⟨hlo, hhi⟩) p _ tot

/-- Settles O26: the AGC row is the first test's, and each other row is its state's rule. -/
theorem transitionTable : Obligations.TransitionTable := by
  refine fun p pos frame d tot hpos => ⟨fun hagc => ?agcBurst, fun hagc =>
    ⟨?noSignal, ?seekingLeadSpace, ?seekingBurst, fun b hbit => ?bit, fun hzero hone => ?noBit⟩⟩
  case agcBurst =>
    have hrow (st : DecoderState) (pos : BitVec 6) := transition_of_agcBurst hagc p ⟨st, pos, frame⟩ tot
    exact ⟨hrow _ _, hrow _ _, hrow _ _, hrow _ _⟩
  case noSignal => exact transition_noSignal hagc p 0 frame tot
  case seekingLeadSpace => rw [transition_seekingLeadSpace hagc, missResult_eq_ite]
  case seekingBurst => rw [transition_seekingBurst hagc, missResult_eq_ite]
  case bit =>
    rw [transition_readingBits_of_bit hagc p pos frame (bitOfTotal_eq_some hbit)]
    have hbits : ∀ j < 32, (writeBit frame pos.toNat b).getLsbD j = if j = pos.toNat then b else frame.getLsbD j :=
      fun _ => getLsbD_writeBit frame b (Nat.lt_succ_of_le hpos)
    rcases resolveBit_cases ⟨.readingBits, pos, frame⟩ b hpos with ⟨heq, hres⟩ | ⟨hlt, hres⟩
    · exact ⟨_, hbits, fun hlt => absurd heq hlt.ne, fun hlast => by rw [hres, hlast]⟩
    · exact ⟨_, hbits, fun _ => hres, fun hlast => absurd hlast hlt.ne⟩
  case noBit =>
    rw [transition_readingBits_of_miss hagc p pos frame (bitOfTotal_eq_none hzero hone), missResult_eq_ite]

/-- Settles O27: the mask clears the bit's position alone, and the bit is put there. -/
theorem bitWriteAssignsOneBit : Obligations.BitWriteAssignsOneBit :=
  fun frame _ b hpos _ hj => getLsbD_writeBit frame b hpos hj

/-- Settles O28: in each of the three states the failed tests leave the policy's result. -/
theorem missFollowsThePolicy : Obligations.MissFollowsThePolicy := by
  intro st pos frame d tot hagc htests
  have hmiss (p : MissPolicy) : transition p ⟨st, pos, frame⟩ d tot = missResult p ⟨st, pos, frame⟩ := by
    rcases htests with ⟨rfl, hstart, hrepeat⟩ | ⟨rfl, hburst⟩ | ⟨rfl, hzero, hone⟩
    · simp [transition_seekingLeadSpace hagc, hstart, hrepeat]
    · simp [transition_seekingBurst hagc, hburst]
    · exact transition_readingBits_of_miss hagc p pos frame (bitOfTotal_eq_none hzero hone)
  exact ⟨hmiss .hold, hmiss .abandon⟩

/-- Settles O29: each case of a transition is one of the allowed moves. -/
theorem transitionsFollowTheStateOrder : Obligations.TransitionsFollowTheStateOrder := by
  intro p r d tot hcomplete hrepeat
  have hr := DecoderState.terminal_eq_false hcomplete hrepeat
  refine ⟨?stops, fun hagc => ?agcBurst, fun hagc => ?move⟩
  case stops => rw [transition_stop_eq_terminal p d tot hr, DecoderState.terminal_iff]
  case agcBurst => rw [transition_of_agcBurst hagc]
  case move =>
    have hmiss := missResult_st p r
    rcases transition_cases p r d tot hr with ⟨hburst, -⟩ | ⟨-, ⟨-, h⟩ | ⟨hst, -, h⟩ | ⟨hst, -, -, h⟩ |
      ⟨-, -, -, h⟩ | ⟨hst, -, h⟩ | ⟨-, -, h⟩ | ⟨b, hst, -, h⟩ | ⟨-, -, h⟩⟩
    · simp [hagc] at hburst
    all_goals rw [h]
    · exact .inl rfl
    · simp [hst]
    · simp [hst]
    · exact hmiss.imp_right .inl
    · simp [hst]
    · exact hmiss.imp_right .inl
    · rcases resolveBit_st_stop r b with ⟨hnext, -⟩ | ⟨hnext, -⟩ <;> simp [hst, hnext]
    · exact hmiss.imp_right .inl

end Sys2Proof.Machine
end

section
/-! PROOFS. The test port STEP: which operands it takes, and the one transition it returns (42_decoder.md R117). -/

namespace Sys2Proof.Machine

theorem stepState_code {q : DecoderState} (h : q.code.toNat ≤ 3) : stepState q.code = some q := by
  cases q with
  | noSignal | seekingLeadSpace | seekingBurst | readingBits => rfl
  | frameComplete | repeatCode => exact absurd h (by decide)

theorem stepState_eq_none {st : BitVec 3} (h : 3 < st.toNat) : stepState st = none := by
  revert st
  decide

theorem stepState_isSome {st : BitVec 3} (h : st.toNat ≤ 3) : ∃ q, stepState st = some q := by
  rw [← Option.isSome_iff_exists]
  revert st
  decide

theorem stepRegs_of_legal {st : BitVec 3} {q : DecoderState} {pos : BitVec 6} (hst : stepState st = some q)
    (hpos : pos.toNat ≤ 31) (frame : Frame) : stepRegs st pos frame = some ⟨q, pos, frame⟩ := by
  simp only [stepRegs, hst, if_pos hpos]

theorem stepRegs_of_illFormed {st : BitVec 3} {pos : BitVec 6} (h : 3 < st.toNat ∨ 31 < pos.toNat) (frame : Frame) :
    stepRegs st pos frame = none := by
  rcases h with hst | hpos
  · simp only [stepRegs, stepState_eq_none hst]
  · simp only [stepRegs, if_neg (Nat.not_le.2 hpos)]
    cases stepState st <;> rfl

theorem exec_stepPort_of_illFormed {st : BitVec 3} {pos : BitVec 6} {frame : Frame} (d tot : Nat) (s : State)
    (h : stepRegs st pos frame = none) :
    exec (.stepPort st pos frame d tot) s = .refused .illFormedStepOperands := by
  rcases exec_stepPort_cases st pos frame d tot s with ⟨-, hexec⟩ | ⟨r, hr, -⟩
  · exact hexec
  · simp [h] at hr

/-- STEP of legal operands that fit their fields returns their transition and changes nothing. -/
theorem exec_stepPort_of_transition {st : BitVec 3} {q : DecoderState} {pos : BitVec 6} {frame : Frame} {d tot : Nat}
    {s : State} {x : StepResult} (hst : stepState st = some q) (hpos : pos.toNat ≤ 31) (hd : d < 2 ^ s.cfg.width)
    (htot : tot < 2 ^ s.cfg.width) (hx : transition s.cfg.missPolicy ⟨q, pos, frame⟩ d tot = x) :
    exec (.stepPort st pos frame d tot) s = .next (s.reply x.toReply) := by
  have hregs := stepRegs_of_legal hst hpos frame
  rcases exec_stepPort_cases st pos frame d tot s with ⟨hnone, -⟩ | ⟨r, hr, hexec⟩
  · simp [hregs] at hnone
  · obtain rfl : ⟨q, pos, frame⟩ = r := Option.some.inj (hregs.symm.trans hr)
    rwa [operandBits, operandBits, Nat.mod_eq_of_lt hd, Nat.mod_eq_of_lt htot, hx] at hexec

/-- Settles O30: STEP is one transition of its operands, so its corner cases are those of the transition function. -/
theorem stepPortReturnsOneTransition : Obligations.StepPortReturnsOneTransition := by
  intro s st pos frame d tot hd htot
  have hagc := DurationClass.accepts_agcBurst_iff d
  refine ⟨fun q hq hst hpos => ?transition, fun h => ?refused, fun hst hpos hlo hhi => ?agcBurst,
    fun hpos hout => ?noSignal, fun hout hbit => ?lastBit, ?bytes⟩
  case transition =>
    subst hq
    exact exec_stepPort_of_transition (stepState_code hst) hpos hd htot rfl
  case refused => exact exec_stepPort_of_illFormed d tot s (stepRegs_of_illFormed h frame)
  case agcBurst =>
    obtain ⟨q, hq⟩ := stepState_isSome hst
    exact exec_stepPort_of_transition hq hpos hd htot (transition_of_agcBurst (hagc.2 ⟨hlo, hhi⟩) ..)
  case noSignal =>
    have hmiss := Bool.eq_false_iff.2 (mt hagc.1 hout)
    exact exec_stepPort_of_transition rfl hpos hd htot (transition_noSignal hmiss ..)
  case lastBit =>
    have hmiss := Bool.eq_false_iff.2 (mt hagc.1 hout)
    obtain ⟨b, hb⟩ : ∃ b, bitOfTotal tot = some b := by
      rw [← DurationClass.accepts_zeroBitTotal_iff, ← DurationClass.accepts_oneBitTotal_iff] at hbit
      rcases hbit with hzero | hone
      · exact ⟨false, bitOfTotal_eq_some (.inl ⟨hzero, rfl⟩)⟩
      · exact ⟨true, bitOfTotal_eq_some (.inr ⟨hone, rfl⟩)⟩
    exact ⟨writeBit frame 31 b,
      exec_stepPort_of_transition rfl (by decide) hd htot (transition_readingBits_of_bit hmiss _ 31 frame hb)⟩
  case bytes => rw [encode, beBytes_one, beBytes_one]; rfl

end Sys2Proof.Machine
end

section
/-! PROOFS. Deltas and totals: differences of entries modulo `2^W` (42_decoder.md R102, R103). -/

namespace Sys2Proof.Machine

/-- A delta is read exactly where its two entries are. -/
theorem State.delta_ok_iff (s : State) (k d : Nat) :
    s.delta k = .ok d ↔
      ∃ later earlier, s.readEntry k = .ok later ∧ s.readEntry (k - 1) = .ok earlier ∧
        elapsed s.cfg later earlier = d := by
  constructor
  · intro h
    obtain ⟨later, hlater, h⟩ := exists_ok_of_bind_eq_ok h
    obtain ⟨earlier, hearlier, h⟩ := exists_ok_of_bind_eq_ok h
    exact ⟨later, earlier, hlater, hearlier, Except.ok.inj h⟩
  · rintro ⟨later, earlier, hlater, hearlier, rfl⟩
    rw [State.delta, hlater, hearlier]
    rfl

theorem State.total_of_readEntry {s : State} {k later earlier : Nat} (hk : 2 ≤ k)
    (hlater : s.readEntry k = .ok later) (hearlier : s.readEntry (k - 2) = .ok earlier) :
    s.total k = .ok (elapsed s.cfg later earlier) := by
  rw [State.total, if_pos hk, hlater, hearlier]
  rfl

theorem natCast_elapsed (c : Config) (later earlier : Nat) :
    (elapsed c later earlier : Int) = ((later : Int) - earlier) % ((2 ^ c.width : Nat) : Int) :=
  Int.toNat_of_nonneg (Int.emod_nonneg _ (by exact_mod_cast (Nat.two_pow_pos c.width).ne'))

/-- Two elapsed times that meet add up modulo `2^W`. -/
theorem elapsed_add_elapsed (c : Config) (later middle earlier : Nat) :
    (elapsed c later middle + elapsed c middle earlier) % 2 ^ c.width = elapsed c later earlier := by
  rw [← Int.natCast_inj, Int.natCast_mod, Nat.cast_add]
  simp only [natCast_elapsed]
  rw [← Int.add_emod, sub_add_sub_cancel]

/-- Settles O31: the two entries are `time` apart modulo `2^W`, and `time` is below `2^W`. -/
theorem deltaIsTheElapsedTimeAcrossAWrap : Obligations.DeltaIsTheElapsedTimeAcrossAWrap := by
  intro s k start time hk hw hcap htime hearlier hlater
  rw [State.delta_ok_iff]
  exact ⟨_, _, (s.readEntry_ok_iff ..).2 ⟨hcap, hw, hlater⟩,
    (s.readEntry_ok_iff ..).2 ⟨by omega, by omega, hearlier⟩, elapsed_mod s.cfg start htime⟩

/-- Settles O32: the two deltas share the entry between them, and the elapsed times that meet there add up. -/
theorem totalIsTheSumOfTwoDeltas : Obligations.TotalIsTheSumOfTwoDeltas := by
  refine ⟨fun s k d d' hk hd hd' => ?_, fun _ => rfl⟩
  obtain ⟨middle, earlier, hmiddle, hearlier, rfl⟩ := (s.delta_ok_iff ..).1 hd
  obtain ⟨later, middle', hlater, hmiddle', rfl⟩ := (s.delta_ok_iff ..).1 hd'
  obtain rfl : middle = middle' := Except.ok.inj (hmiddle.symm.trans hmiddle')
  rw [State.total_of_readEntry hk hlater hearlier, elapsed_add_elapsed]

end Sys2Proof.Machine
end

section
/-! PROOFS. What the scan depends on: it starts from the reset (42_decoder.md R101) and is a function of the recorded
entries, `W` and the policy (R118). -/

namespace Sys2Proof.Machine

/-! ### DECODE and POLL by the result of the scan -/

theorem exec_decode_of_scan {s : State} {r : DecoderRegs} (h : s.scan = .ok r) :
    exec .decode s = .next { s with st := r.st, pos := r.pos, frame := r.frame, capSusp := false } := by
  rcases exec_decode_cases s with ⟨f, hs, -⟩ | ⟨r', hs, hexec⟩ <;> rw [h] at hs <;> cases hs
  exact hexec

theorem exec_decode_of_scan_error {s : State} {f : Fault} (h : s.scan = .error f) : exec .decode s = .fault f := by
  rcases exec_decode_cases s with ⟨f', hs, hexec⟩ | ⟨r, hs, -⟩ <;> rw [h] at hs <;> cases hs
  exact hexec

theorem exec_poll_of_scan {s : State} {r : DecoderRegs} (hthr : s.cfg.thr ≤ s.w) (h : s.scan = .ok r) :
    exec .poll s = .next { s with
      w := 0, st := r.st, pos := r.pos, frame := r.frame, capSusp := false,
      replies := s.replies ++ [(s.issuer, .ready true)] } := by
  rcases exec_poll_cases s with ⟨hlt, -⟩ | ⟨-, f, hs, -⟩ | ⟨-, r', hs, hexec⟩
  · omega
  · rw [h] at hs; cases hs
  · rw [h] at hs; cases hs; exact hexec

theorem exec_poll_of_scan_error {s : State} {f : Fault} (hthr : s.cfg.thr ≤ s.w) (h : s.scan = .error f) :
    exec .poll s = .fault f := by
  rcases exec_poll_cases s with ⟨hlt, -⟩ | ⟨-, f', hs, hexec⟩ | ⟨-, r, hs, -⟩
  · omega
  · rw [h] at hs; cases hs; exact hexec
  · rw [h] at hs; cases hs

/-- The scan does not read the decoder's elements (42_decoder.md R101). -/
theorem State.scan_setDecoder (s : State) (r : DecoderRegs) : (s.setDecoder r).scan = s.scan :=
  State.scan_congr rfl rfl rfl

theorem State.scan_of_w_le_one {s : State} (hw : s.w ≤ 1) : s.scan = .ok decoderReset := by
  rw [State.scan, Nat.sub_eq_zero_of_le hw]
  rfl

/-- Settles O35: the scan is the same whatever the decoder's elements hold, and DECODE and POLL overwrite them. -/
theorem everyScanStartsFromTheReset : Obligations.EveryScanStartsFromTheReset := by
  intro s r
  have hscan := s.scan_setDecoder r
  refine ⟨?decode, fun hthr => ?poll, fun hw => exec_decode_of_scan (State.scan_of_w_le_one hw)⟩
  case decode =>
    cases h : s.scan with
    | error f => rw [exec_decode_of_scan_error h, exec_decode_of_scan_error (hscan.trans h)]
    | ok r' => rw [exec_decode_of_scan h, exec_decode_of_scan (hscan.trans h)]; rfl
  case poll =>
    cases h : s.scan with
    | error f => rw [exec_poll_of_scan_error hthr h, exec_poll_of_scan_error (s := s.setDecoder r) hthr (hscan.trans h)]
    | ok r' => rw [exec_poll_of_scan hthr h, exec_poll_of_scan (s := s.setDecoder r) hthr (hscan.trans h)]; rfl

/-! ### What the scan depends on (42_decoder.md R118) -/

theorem elapsed_congr {c c' : Config} (hwidth : c.width = c'.width) : elapsed c = elapsed c' := by
  funext later earlier
  rw [elapsed, elapsed, hwidth]

theorem durationsOf_congr {c c' : Config} (hwidth : c.width = c'.width) (times : List Nat) :
    durationsOf c times = durationsOf c' times := by
  simp only [durationsOf, deltaAt, totalAt, elapsed_congr hwidth]

theorem decodeTimes_congr {c c' : Config} (hwidth : c.width = c'.width) (hpolicy : c.missPolicy = c'.missPolicy)
    (times : List Nat) : decodeTimes c times = decodeTimes c' times := by
  rw [decodeTimes, decodeTimes, durationsOf_congr hwidth, hpolicy]

/-- Settles O36: DECODE leaves what the scan reads, and the recursion over the durations reads `W` and the policy
alone. -/
theorem decodingTwiceGivesTheSameResult : Obligations.DecodingTwiceGivesTheSameResult := by
  refine ⟨fun s t h => ?twice, fun s s' t t' times hs hs' hwidth hpolicy h h' => ?function⟩
  case twice =>
    rcases exec_decode_cases s with ⟨f, -, hexec⟩ | ⟨r, hscan, hexec⟩ <;> rw [hexec] at h <;> cases h
    have hagain : (s.setDecoder r).resume.scan = .ok r := by
      rw [← hscan]
      exact State.scan_congr rfl rfl rfl
    exact exec_decode_of_scan hagain
  case function =>
    rw [hs.exec_decode] at h
    rw [hs'.exec_decode, ← decodeTimes_congr hwidth hpolicy] at h'
    cases h
    cases h'
    exact ⟨rfl, rfl, rfl⟩

end Sys2Proof.Machine
end

section
/-! PROOFS. What the scan ends in: it never looks past a terminal state (42_decoder.md R111), and what it leaves where
there is no AGC burst (R105), a repeat code (R106), or a frame after a broken one (R104, R116). -/

namespace Sys2Proof.Machine

/-! ### The recursion over a recording cut in two (42_decoder.md R111) -/

/-- The scan of more durations is finished where the scan of the first ones is, and otherwise goes on from it. -/
theorem scanDurations_append (p : MissPolicy) (ds rest : List (Nat × Nat)) {r : DecoderRegs}
    (hr : r.st.terminal = false) :
    scanDurations p (ds ++ rest) r =
      if (scanDurations p ds r).st.terminal then scanDurations p ds r
      else scanDurations p rest (scanDurations p ds r) := by
  induction ds generalizing r with
  | nil => simp [scanDurations, hr]
  | cons e ds ih =>
    obtain ⟨d, tot⟩ := e
    have hstop := transition_stop_eq_terminal p d tot hr
    rcases hx : transition p r d tot with ⟨r', _ | _⟩ <;> rw [hx] at hstop
    · rw [List.cons_append, scanDurations_cons_of_continue hx, scanDurations_cons_of_continue hx, ih hstop.symm]
    · rw [List.cons_append, scanDurations_cons_of_stop hx, scanDurations_cons_of_stop hx, if_pos hstop.symm]

/-- Later timestamps only add durations behind the earlier ones. -/
theorem durationsOf_append (c : Config) (times more : List Nat) :
    ∃ rest, durationsOf c (times ++ more) = durationsOf c times ++ rest := by
  rcases times.eq_nil_or_concat with rfl | ⟨before, t, rfl⟩
  · exact ⟨_, rfl⟩
  · rw [List.concat_eq_append, List.append_assoc]
    exact ⟨_, durationsOf_append_cons c before t more⟩

theorem decodeTimes_append_of_terminal {c : Config} {times : List Nat} (more : List Nat)
    (h : (decodeTimes c times).st.terminal = true) : decodeTimes c (times ++ more) = decodeTimes c times := by
  obtain ⟨rest, hrest⟩ := durationsOf_append c times more
  rw [decodeTimes, hrest, scanDurations_append _ _ _ rfl]
  exact if_pos h

theorem decodeTimes_append_cons_of_not_terminal {c : Config} {before : List Nat} {t : Nat} (ts : List Nat)
    (h : (decodeTimes c (before ++ [t])).st.terminal = false) :
    decodeTimes c (before ++ t :: ts) = scanDurations c.missPolicy
      (durationsAfter c (before.getLastD t) t ts) (decodeTimes c (before ++ [t])) := by
  rw [decodeTimes, durationsOf_append_cons, scanDurations_append _ _ _ rfl]
  exact if_neg (Bool.eq_false_iff.1 h)

/-- Settles O38: the scan of the longer recording passes through the terminal state and stops there. -/
theorem laterEdgesDoNotChangeAFinishedScan : Obligations.LaterEdgesDoNotChangeAFinishedScan := by
  intro s s' t t' times more hs hs' hcfg h hterminal h'
  rw [hs.exec_decode] at h
  cases h
  rw [← DecoderState.terminal_iff] at hterminal
  rw [hs'.exec_decode, ← hcfg, decodeTimes_append_of_terminal more hterminal] at h'
  cases h'
  exact ⟨rfl, rfl, rfl⟩

/-! ### No AGC burst, a repeat code, and a frame after a broken frame -/

theorem decodeTimes_of_noAgc {c : Config} {times : List Nat}
    (h : ∀ k, 1 ≤ k → k < times.length → DurationClass.agcBurst.accepts (deltaAt c times k) = false) :
    decodeTimes c times = decoderReset := by
  have hquiet : ∀ e ∈ durationsOf c times, DurationClass.agcBurst.accepts e.1 = false := by
    intro e he
    obtain ⟨k, hk, hlt, rfl⟩ := mem_durationsOf he
    exact h k hk hlt
  have hscan := scanDurations_append_of_noAgc (p := c.missPolicy) (r := decoderReset) rfl hquiet []
  rwa [List.append_nil] at hscan

/-- Settles O39: without an AGC burst the scan ends where it started. -/
theorem noSynchronizationWithoutAnAgcBurst : Obligations.NoSynchronizationWithoutAnAgcBurst := by
  intro s times hholds hquiet
  rw [hholds.exec_decode, decodeTimes_of_noAgc hquiet]
  rfl

/-- A recording of three timestamps or more begins with its first two deltas. -/
theorem durationsOf_of_three_le (c : Config) {times : List Nat} (h : 3 ≤ times.length) :
    ∃ rest, durationsOf c times =
      (deltaAt c times 1, totalAt c times 1) :: (deltaAt c times 2, totalAt c times 2) :: rest := by
  match times, h with
  | t₀ :: t₁ :: t₂ :: later, _ => exact ⟨durationsAfter c t₁ t₂ later, durationsOf_cons c t₀ _⟩

/-- In SEEKING_LEAD_SPACE a repeat spacer ends the scan (42_decoder.md R106). -/
theorem transition_repeatSpacer {d : Nat} (h : DurationClass.repeatSpacer.accepts d = true) (p : MissPolicy)
    (pos : BitVec 6) (frame : Frame) (tot : Nat) :
    transition p ⟨.seekingLeadSpace, pos, frame⟩ d tot = ⟨⟨.repeatCode, pos, frame⟩, true⟩ := by
  have hagc : DurationClass.agcBurst.accepts d = false := DurationClass.not_accepts_of_accepts (by decide) h
  have hstart : DurationClass.startSpacer.accepts d = false := DurationClass.not_accepts_of_accepts (by decide) h
  simp [transition_seekingLeadSpace hagc, hstart, h]

theorem decodeTimes_repeatCode {c : Config} {times : List Nat} (hlen : 3 ≤ times.length)
    (hagc : DurationClass.agcBurst.accepts (deltaAt c times 1) = true)
    (hspacer : DurationClass.repeatSpacer.accepts (deltaAt c times 2) = true) :
    decodeTimes c times = ⟨.repeatCode, 0, 0⟩ := by
  obtain ⟨rest, hdur⟩ := durationsOf_of_three_le c hlen
  rw [decodeTimes, hdur, scanDurations_cons_of_continue (transition_of_agcBurst hagc ..),
    scanDurations_cons_of_stop (transition_repeatSpacer hspacer ..)]
  rfl

/-- Settles O40: the AGC burst synchronizes and the repeat spacer stops the scan, before anything that follows. -/
theorem repeatCodeEndsTheScan : Obligations.RepeatCodeEndsTheScan := by
  intro s times hholds hlen hlo₁ hhi₁ hlo₂ hhi₂
  have hagc := (DurationClass.accepts_agcBurst_iff _).2 ⟨hlo₁, hhi₁⟩
  have hspacer := (DurationClass.accepts_repeatSpacer_iff _).2 ⟨hlo₂, hhi₂⟩
  rw [hholds.exec_decode, decodeTimes_repeatCode hlen hagc hspacer]

/-- A frame behind anything the scan has not ended on is decoded exactly (42_decoder.md R104, R116). -/
theorem decodeTimes_frameTimes_of_not_terminal {c : Config} (hc : c.wf) (before tail : List Nat) (f : Frame) (t0 : Nat)
    (hbefore : (decodeTimes c (before ++ [t0 % 2 ^ c.width])).st.terminal = false) :
    decodeTimes c (before ++ recordedTimes c (frameTimes f t0) ++ tail) = ⟨.frameComplete, 32, f⟩ := by
  have hsplit : before ++ recordedTimes c (frameTimes f t0) ++ tail =
      before ++ t0 % 2 ^ c.width :: (recordedTimes c (frameTimes f t0).tail ++ tail) := by
    rw [List.append_assoc]
    rfl
  rw [hsplit, decodeTimes_append_cons_of_not_terminal _ hbefore]
  exact scanDurations_frameTimes hc _ f _ _ t0 tail

/-- Settles O42: the scan reaches the frame's first edge in a non-terminal state, and from there the frame's AGC burst
restarts it and its 32 bits overwrite the whole frame. -/
theorem frameAfterABrokenFrameIsRecovered : Obligations.FrameAfterABrokenFrameIsRecovered := by
  intro s before tail address command t0 hwf hholds hcomplete hrepeat
  have hdecode := State.Holds.exec_decode
    (times := before ++ recordedTimes s.cfg (frameTimes (frameOf address command) t0) ++ tail) hholds
  rw [decodeTimes_frameTimes_of_not_terminal hwf before tail _ t0
    (DecoderState.terminal_eq_false hcomplete hrepeat)] at hdecode
  exact ⟨_, hdecode, rfl, rfl, rfl⟩

end Sys2Proof.Machine
end

section
/-! PROOFS. The host's operations, each with its command byte, its returned value and its whole next state
(43_host_interface.md), and threshold-reached kept apart from decode-succeeded (R136). -/

namespace Sys2Proof.Machine

/-! ### DECODE and POLL -/

theorem exec_poll_of_lt {s : State} (hlt : s.w < s.cfg.thr) : exec .poll s = .next (s.reply (.ready false)) := by
  rcases exec_poll_cases s with ⟨-, hexec⟩ | ⟨hthr, -⟩ | ⟨hthr, -⟩
  · exact hexec
  · omega
  · omega

/-- Settles O33: the scan of a buffer that holds these timestamps is the recursion over their durations, and with at
most one entry there is no duration. -/
theorem decodeScansTheRecordedEntries : Obligations.DecodeScansTheRecordedEntries :=
  fun _ _ hholds => ⟨hholds.exec_decode, fun hw => exec_decode_of_scan (State.scan_of_w_le_one hw), rfl⟩

/-- Settles O34: below the threshold POLL is its reply alone, and from there on it leaves what the scan gives. -/
theorem pollDecodesFromTheThresholdOn : Obligations.PollDecodesFromTheThresholdOn :=
  fun _ _ hholds => ⟨exec_poll_of_lt, hholds.exec_poll, rfl⟩

/-! ### Ready without a decoded frame (43_host_interface.md R136) -/

theorem elapsed_self (c : Config) (t : Nat) : elapsed c t t = 0 := by
  simp [elapsed]

theorem deltaAt_replicate_zero (c : Config) (n k : Nat) : deltaAt c (List.replicate n 0) k = 0 := by
  simp only [deltaAt, List.getD_eq_getElem?_getD, List.getElem?_getD_replicate_default_eq, elapsed_self]

/-- Edges that all came at time 0 leave the decoder at its reset: a delta of 0 is no AGC burst. -/
theorem decodeTimes_replicate_zero (c : Config) (n : Nat) : decodeTimes c (List.replicate n 0) = decoderReset :=
  decodeTimes_of_noAgc fun k _ _ => by
    rw [deltaAt_replicate_zero]
    exact DurationClass.not_accepts_zero .agcBurst

/-- Settles O44: as many edges at time 0 as the threshold asks for make POLL return true, and decode to NO_SIGNAL. -/
theorem readyIsNotSuccess : Obligations.ReadyIsNotSuccess := by
  intro c hwf
  have ⟨_, _, hthr, _⟩ := hwf
  have hfits : (List.replicate c.thr 0).length ≤ c.cap := by rw [List.length_replicate]; exact hthr.le
  have hzero : ∀ t ∈ List.replicate c.thr 0, t < 2 ^ c.width := fun t ht =>
    List.eq_of_mem_replicate ht ▸ Nat.two_pow_pos c.width
  have hready : c.thr ≤ (List.replicate c.thr 0).length := List.length_replicate.ge
  have hpoll := (State.holding_holds c _ hfits).exec_poll hready
  refine ⟨_, _, State.holding_inv c _ hwf hfits hzero, rfl, hpoll, rfl, ?_⟩
  have hscan : decodeTimes (State.holding c (List.replicate c.thr 0)).cfg (List.replicate c.thr 0) = decoderReset :=
    decodeTimes_replicate_zero c c.thr
  simp [State.decodeSucceeded, hscan, decoderReset]

/-! ### INIT -/

theorem State.enableCapture_of_capEn {s : State} (hen : s.capEn = true) : s.enableCapture = s := by
  rw [State.enableCapture, ← hen]

/-- Settles O14: INIT is one write of `cap_en`. At power-on EDGE is dropped; after INIT there is room, and it is
recorded. -/
theorem initOnlyEnablesCapture : Obligations.InitOnlyEnablesCapture := by
  refine fun s => ⟨exec_init s, fun hen => ?again, rfl, fun c time hwf hfit => ⟨?dropped, ?recorded⟩⟩
  case again => rw [exec_init, State.enableCapture_of_capEn hen]
  case dropped => exact exec_edge_of_dropped rfl (.inl rfl)
  case recorded =>
    obtain ⟨hcap, -⟩ := hwf
    have hroom : (State.powerOn c).w < c.cap := Nat.zero_lt_of_lt hcap
    have hedge : exec (.edge time) (State.powerOn c).enableCapture =
        .next ((State.powerOn c).enableCapture.append time) := exec_edge_of_room rfl rfl hroom hfit
    have hrun : execAll [.init, .edge time] (State.powerOn c) =
        .next ((State.powerOn c).enableCapture.append time) := by
      rw [execAll_cons_of_next _ (exec_init _), execAll_cons_of_next _ hedge]
      rfl
    exact ⟨_, hrun, rfl, Memory.read_write_same [] 0 time⟩

/-! ### RDFRAME and RDSTATE -/

theorem getLsbD_addressOf (frame : Frame) {j : Nat} (hj : j < 16) :
    (addressOf frame).getLsbD j = frame.getLsbD j := by
  simp [addressOf, hj]

theorem getLsbD_commandOf (frame : Frame) {j : Nat} (hj : j < 16) :
    (commandOf frame).getLsbD j = frame.getLsbD (16 + j) := by
  simp [commandOf, hj]

/-- Settles O45: RDFRAME is one reply, whose two fields are the two extracts of the frame. -/
theorem rdFrameReturnsTheTwoHalves : Obligations.RdFrameReturnsTheTwoHalves :=
  fun s => ⟨addressOf s.frame, commandOf s.frame, exec_rdFrame s,
    fun _ hj => ⟨getLsbD_addressOf s.frame hj, getLsbD_commandOf s.frame hj⟩, rfl⟩

/-- Settles O46: RDSTATE is one reply, with the code of the state it finds. -/
theorem rdStateReturnsCodeAndPosition : Obligations.RdStateReturnsCodeAndPosition := by
  intro s
  refine ⟨s.st.code, exec_rdState s, ?_, ?_, ?_, ?_, ?_, ?_, rfl⟩ <;> (intro hst; rw [hst]; rfl)

end Sys2Proof.Machine
end

section
/-! PROOFS. Every legal operation completes where the invariants hold, and no run meets a fault
(60_exceptions.md R150). -/

namespace Sys2Proof.Machine

/-- Where the invariants hold, the buffer holds a sequence of timestamps, so a scan reads recorded entries alone. -/
theorem State.Inv.exists_holds {s : State} (h : s.Inv) : ∃ times, s.Holds times := by
  refine ⟨(List.range s.w).map fun i => (s.buf.read i).getD 0, by simp, by simpa using h.length, fun k hk => ?_⟩
  have hw : k < s.w := by simpa using hk
  obtain ⟨v, hv⟩ := Option.isSome_iff_exists.1 (h.recorded k hw)
  simp [hv]

/-- Where the invariants hold, an operation completes, or it is a test port with reserved or ill-formed operands and
is refused. -/
theorem State.Inv.exec_cases {s : State} (h : s.Inv) (i : Instr) :
    (∃ t, exec i s = .next t) ∨
    (∃ m cls, i = .matchPort m cls ∧ 5 < cls.toNat ∧ exec i s = .refused .reservedClassSelector) ∨
    (∃ st pos frame d tot, i = .stepPort st pos frame d tot ∧ (3 < st.toNat ∨ 31 < pos.toNat) ∧
      exec i s = .refused .illFormedStepOperands) := by
  obtain ⟨times, hholds⟩ := h.exists_holds
  cases i with
  | init => exact .inl ⟨_, exec_init s⟩
  | edge t =>
    rcases exec_edge_cases t s with ⟨hsusp, -⟩ | ⟨-, -, -, he⟩ | ⟨-, -, he⟩
    · exact absurd hsusp (by simp [h.resumed])
    · exact .inl ⟨_, he⟩
    · exact .inl ⟨_, he⟩
  | poll =>
    rcases Nat.lt_or_ge s.w s.cfg.thr with hlt | hthr
    · exact .inl ⟨_, exec_poll_of_lt hlt⟩
    · exact .inl ⟨_, hholds.exec_poll hthr⟩
  | decode => exact .inl ⟨_, hholds.exec_decode⟩
  | rdFrame => exact .inl ⟨_, exec_rdFrame s⟩
  | rdState => exact .inl ⟨_, exec_rdState s⟩
  | matchPort m cls =>
    rcases Nat.lt_or_ge 5 cls.toNat with hreserved | hlegal
    · exact .inr (.inl ⟨m, cls, rfl, hreserved, exec_matchPort_of_reserved (classOfSelector_of_ge hreserved) m s⟩)
    · obtain ⟨k, hk, -⟩ := classOfSelector_of_lt (Nat.lt_succ_of_le hlegal)
      exact .inl ⟨_, exec_matchPort_of_class hk m s⟩
  | stepPort st pos frame d tot =>
    rcases exec_stepPort_cases st pos frame d tot s with ⟨hnone, he⟩ | ⟨r, -, he⟩
    · refine .inr (.inr ⟨st, pos, frame, d, tot, rfl, ?_, he⟩)
      by_contra hlegal
      obtain ⟨q, hq⟩ := stepState_isSome (st := st) (by omega)
      simp [stepRegs_of_legal hq (by omega : pos.toNat ≤ 31)] at hnone
    · exact .inl ⟨_, he⟩

/-- Settles O12: the operands exclude both refusals, and what completes keeps the invariants. -/
theorem everyLegalOperationCompletes : Obligations.EveryLegalOperationCompletes := by
  intro s i hinv hmatch hstep
  rcases hinv.exec_cases i with ⟨t, ht⟩ | ⟨m, cls, hi, hcls, -⟩ | ⟨st, pos, frame, d, tot, hi, hill, -⟩
  · exact ⟨t, ht, (exec_effect ht).keeps_inv hinv⟩
  · exact absurd (hmatch m cls hi) (by omega)
  · exact absurd (hstep st pos frame d tot hi) (by omega)

theorem State.Inv.exec_ne_fault {s : State} (h : s.Inv) (i : Instr) (f : Fault) : exec i s ≠ .fault f := by
  rcases h.exec_cases i with ⟨t, he⟩ | ⟨m, cls, -, -, he⟩ | ⟨st, pos, frame, d, tot, -, -, he⟩ <;> rw [he] <;> nofun

theorem State.Inv.step_ne_fault {s : State} (h : s.Inv) (f : Fault) : step s ≠ .fault f := by
  rcases s.fetch_cases with ⟨order, hfetch⟩ | ⟨i, a, bytes, rest, -, -, -, hfetch⟩ | ⟨r, hfetch⟩ <;> rw [step, hfetch]
  · nofun
  · exact (h.accept a bytes rest).exec_ne_fault i f
  · nofun

/-- Every state of every run meets the invariants: what the agents have yet to issue is no part of them. -/
theorem Reachable.inv {s : State} (h : Reachable s) : s.Inv := by
  induction h with
  | powerOn c hc => exact State.powerOn_inv hc
  | input s hostIn edgeIn order _ ih => exact ih.congr rfl rfl rfl rfl rfl rfl
  | step s t _ hst ih => exact stepKeepsTheInvariants s t ih hst

/-- Settles O11: every state of a run meets the invariants, and from such a state no step is a fault. -/
theorem noRunMeetsAFault : Obligations.NoRunMeetsAFault := fun _ f hrun => hrun.inv.step_ne_fault f

end Sys2Proof.Machine
end

section
/-! PROOFS. Reserved and ill-formed operations are refused by name (60_exceptions.md R151), and a refusal ends the
run. -/

namespace Sys2Proof.Machine

/-! ### Reserved command bytes -/

theorem step_of_decode_error {s : State} {a : Agent} {order : List Agent} {b : Byte} {bytes : List Byte}
    {e : DecodeError} (horder : s.order = a :: order) (hstream : s.stream a = b :: bytes)
    (hdec : decode s.cfg (b :: bytes) = .error e) : step s = .refused (refusalOf e) := by
  simp only [step, State.fetch, horder, hstream, hdec]

theorem decode_of_reservedOpCode {b : Byte} (h : reservedOpCode (opCode b)) (c : Config) (bytes : List Byte) :
    decode c (b :: bytes) = .error .reservedOpcode := by
  rw [decode, if_pos h]

theorem decode_of_commandBits_ne_zero {b : Byte} (hop : ¬ reservedOpCode (opCode b)) (h : commandBits b ≠ 0)
    (c : Config) (bytes : List Byte) : decode c (b :: bytes) = .error .reservedCommandBits := by
  rw [decode, if_neg hop, if_pos h]

/-! ### The end of a run -/

theorem core_run_add_of_next {M : Host.Core} {n : Nat} {s t : M.State} (h : M.run n s = .next t) (k : Nat) :
    M.run (n + k) s = M.run k t := by
  induction n generalizing s with
  | zero => cases h; rw [Nat.zero_add]
  | succ n ih =>
    rw [Nat.succ_add]
    rw [Host.Core.run] at h ⊢
    cases hstep : M.step s with
    | next u => rw [hstep] at h; exact ih h
    | fault f => rw [hstep] at h; cases h
    | refused r => rw [hstep] at h; cases h

theorem core_run_succ_of_refused {M : Host.Core} {s : M.State} {r : M.Refusal} (h : M.step s = .refused r) (k : Nat) :
    M.run (k + 1) s = .refused r := by
  rw [Host.Core.run, h]

/-- Settles O4: the decoder rejects both kinds of reserved byte, the reserved op code first; the test ports' operands
have no class and no registers; and a run stops at the first refusal. -/
theorem reservedOperationsAreRefusedByName : Obligations.ReservedOperationsAreRefusedByName := by
  refine ⟨fun s a order b bytes horder hstream => ?bytes, fun s m cls hcls => ?selector,
    fun s st pos frame d tot hill => ?operands, fun s t n k r hrun hrefused => ?run⟩
  case bytes =>
    have hopcode (hop : reservedOpCode (opCode b)) : step s = .refused .reservedOpcode :=
      step_of_decode_error horder hstream (decode_of_reservedOpCode hop s.cfg bytes)
    refine ⟨fun hop _ => hopcode hop, fun hop hbits => ?_, fun hop _ => .inl (hopcode hop)⟩
    have hfree : ¬ reservedOpCode (opCode b) := by unfold opCode; omega
    exact step_of_decode_error horder hstream (decode_of_commandBits_ne_zero hfree hbits s.cfg bytes)
  case selector => exact exec_matchPort_of_reserved (classOfSelector_of_ge hcls) m s
  case operands => exact exec_stepPort_of_illFormed d tot s (stepRegs_of_illFormed hill frame)
  case run =>
    rw [Nat.add_assoc, Nat.add_comm 1, core_run_add_of_next hrun]
    exact core_run_succ_of_refused hrefused k

end Sys2Proof.Machine
end

section
/-! PROOFS. The power-on values (70_reset_and_hazards.md R170), and what POLL, DECODE and INIT reset (R172). -/

namespace Sys2Proof.Machine

/-! ### Power-on -/

theorem addressOf_zero : addressOf 0 = 0 := by decide

theorem commandOf_zero : commandOf 0 = 0 := by decide

/-- Settles O8: reset is power-on under the test vectors' parameters, and power-on writes every value out. -/
theorem powerOnValues : Obligations.PowerOnValues := by
  intro s hs
  have hpowerOn : ∃ c, s = State.powerOn c := hs.elim (fun hreset => ⟨Config.testVectors, hreset⟩) id
  obtain ⟨c, rfl⟩ := hpowerOn
  exact ⟨Memory.read_nil, rfl, rfl, rfl, rfl, addressOf_zero, commandOf_zero, rfl, rfl⟩

/-! ### What reaches an entry -/

/-- No read reaches an entry at or above `w`, whatever the buffer holds there (20_memory.md R40). -/
theorem State.readEntry_ne_ok_of_w_le {s : State} {k : Nat} (hk : s.w ≤ k) (v : Nat) : s.readEntry k ≠ .ok v := by
  intro hread
  obtain ⟨-, hlt, -⟩ := (s.readEntry_ok_iff k v).1 hread
  omega

/-! ### What an operation resets -/

theorem exec_poll_resetsCapture {s t : State} (hthr : s.cfg.thr ≤ s.w) (h : exec .poll s = .next t) :
    t.w = 0 ∧ t.buf = s.buf := by
  rcases exec_poll_cases s with ⟨hlt, -⟩ | ⟨-, f, -, hexec⟩ | ⟨-, r, -, hexec⟩
  · omega
  · rw [hexec] at h; cases h
  · rw [hexec] at h; cases h; exact ⟨rfl, rfl⟩

theorem exec_decode_keepsCapture {s t : State} (h : exec .decode s = .next t) : t.w = s.w ∧ t.buf = s.buf := by
  rcases exec_decode_cases s with ⟨f, -, hexec⟩ | ⟨r, -, hexec⟩ <;> rw [hexec] at h <;> cases h
  exact ⟨rfl, rfl⟩

/-- Settles O37: a POLL from the threshold on leaves `w` at 0, below every entry that is still in `buf`; DECODE writes
neither `w` nor `buf`; and INIT is one write of `cap_en`. -/
theorem pollResetsCaptureDecodeAndInitDoNot : Obligations.PollResetsCaptureDecodeAndInitDoNot := by
  refine ⟨fun s t hthr hpoll => ?poll, fun s t => exec_decode_keepsCapture, fun s t hinit => ?init⟩
  case poll =>
    obtain ⟨hw, hbuf⟩ := exec_poll_resetsCapture hthr hpoll
    exact ⟨hw, hbuf, fun k => State.readEntry_ne_ok_of_w_le (hw.trans_le k.zero_le)⟩
  case init =>
    rw [exec_init] at hinit
    cases hinit
    exact ⟨rfl, rfl, rfl, rfl, rfl⟩

end Sys2Proof.Machine
end
